-- ==== Sys2Proof/Word.lean ====
section
/-! DEFINITION. The word types of the frame codec (00_scope.md R8, R11). Every quantity of the spec is unsigned, so each is a
bit vector of its stated width; lengths and indices are natural numbers (R11). -/

namespace Sys2Proof

/-- u8: a frame byte, an IBUF cell, STATUS, NVAL (R8, R26). -/
abbrev Byte := BitVec 8

/-- u16: the CRC accumulator, CRCOUT, a register value, START, COUNT, LEN (R8, R62). -/
abbrev Half := BitVec 16

/-- The 64-bit command word written to CMD (R25, R60). -/
abbrev CommandWord := BitVec 64

end Sys2Proof
end

