-- ==== Sys2Proof/Syntax.lean ====
section
/-! DEFINITION. The commands of the frame codec: one constructor for each row of spec/opcode_table.json (30_encoding.md R64).
The operands are the unsigned fields of R63. -/

namespace Sys2Proof

/-- A command, with its operands. -/
inductive Instr where
  /-- `CRC len` (R85): the CRC-16 of `IBUF[0 .. len)`. -/
  | crc (len : Half)
  /-- `ENC sa, fc, start, count` (R102): the 8-byte request frame. -/
  | enc (sa fc : Byte) (start count : Half)
  /-- `DEC len` (R127): check and decode the response `IBUF[0 .. len)`. -/
  | dec (len : Half)
  deriving DecidableEq, Repr

/-- The mnemonic of R64. -/
def Instr.mnemonic : Instr → String
  | .crc _ => "CRC"
  | .enc _ _ _ _ => "ENC"
  | .dec _ => "DEC"

end Sys2Proof
end

