-- ==== Sys2Proof/Decode.lean ====
section
/-! DEFINITION. From a command word to a command and back (30_encoding.md R60 to R66, R68). The third check of R68, the length
against `BUF_SIZE` (R67), needs the block's configuration; the meaning of the command makes it, still before any read (log 13). -/

namespace Sys2Proof

/-- Why a word is no command, in the order in which the block looks (R68). -/
inductive DecodeError where
  /-- R65: OP is 0x00 or 0x04..0xFF. -/
  | reservedOpcode
  /-- R66: OP is 0x01, 0x02 or 0x03 and RSV is not zero. -/
  | reservedBitsSet
  deriving DecidableEq, Repr

/-! The fields of R61, R62 and R63. -/

/-- OP = w[7:0]. -/
def opField (w : CommandWord) : Byte := w.extractLsb' 0 8
/-- LEN = w[23:8] (format L). -/
def lenField (w : CommandWord) : Half := w.extractLsb' 8 16
/-- RSV = w[63:24] (format L). -/
def rsvFieldL (w : CommandWord) : BitVec 40 := w.extractLsb' 24 40
/-- SA = w[15:8] (format E). -/
def saField (w : CommandWord) : Byte := w.extractLsb' 8 8
/-- FC = w[23:16] (format E). -/
def fcField (w : CommandWord) : Byte := w.extractLsb' 16 8
/-- START = w[39:24] (format E). -/
def startField (w : CommandWord) : Half := w.extractLsb' 24 16
/-- COUNT = w[55:40] (format E). -/
def countField (w : CommandWord) : Half := w.extractLsb' 40 16
/-- RSV = w[63:56] (format E). -/
def rsvFieldE (w : CommandWord) : Byte := w.extractLsb' 56 8

/-- The decoder of R64 with the checks of R65 and R66, in that order (R68). -/
def decode (w : CommandWord) : Except DecodeError Instr :=
  if opField w = 0x01#8 then
    if rsvFieldL w = 0#40 then .ok (.crc (lenField w)) else .error .reservedBitsSet
  else if opField w = 0x02#8 then
    if rsvFieldE w = 0#8 then
      .ok (.enc (saField w) (fcField w) (startField w) (countField w))
    else .error .reservedBitsSet
  else if opField w = 0x03#8 then
    if rsvFieldL w = 0#40 then .ok (.dec (lenField w)) else .error .reservedBitsSet
  else .error .reservedOpcode

/-- The word of a command (R69: `0x01 | len << 8` and so on; R85, R102, R127 say the same). -/
def encode : Instr → CommandWord
  | .crc len => 0x01#64 ||| len.setWidth 64 <<< 8
  | .enc sa fc start count =>
    0x02#64 ||| sa.setWidth 64 <<< 8 ||| fc.setWidth 64 <<< 16 ||| start.setWidth 64 <<< 24
      ||| count.setWidth 64 <<< 40
  | .dec len => 0x03#64 ||| len.setWidth 64 <<< 8

/-- A row of the match and mask table of R64. -/
structure OpcodeRow where
  mnemonic : String
  mask : CommandWord
  matchWord : CommandWord
  deriving DecidableEq, Repr

/-- The match and mask table of R64 (spec/opcode_table.json). -/
def opcodeTable : List OpcodeRow :=
  [⟨"CRC", 0xFFFFFFFFFF0000FF#64, 0x0000000000000001#64⟩,
   ⟨"ENC", 0xFF000000000000FF#64, 0x0000000000000002#64⟩,
   ⟨"DEC", 0xFFFFFFFFFF0000FF#64, 0x0000000000000003#64⟩]

/-- R64: "`(w & mask) == match`". -/
def OpcodeRow.hits (r : OpcodeRow) (w : CommandWord) : Bool := w &&& r.mask == r.matchWord

/-- The command word whose low `nbits` bits are those of `w` and whose other bits are 0. -/
def tableWord (nbits w : Nat) : CommandWord := BitVec.ofNat 64 (w % 2 ^ nbits)

/-- What the decoder reads from a table row's bits. Every command is one 64-bit word (R60), so a row's bit numbers are the bit
numbers of the word. -/
def decodeTableWord (nbits w : Nat) : Option Instr :=
  match decode (tableWord nbits w) with
  | .ok i => some i
  | .error _ => none

end Sys2Proof
end

