-- ==== Sys2Proof/Config.lean ====
section
/-! DEFINITION. What an implementation of the frame codec fixes (00_scope.md R9).

`BUF_SIZE` is the one open parameter a rule depends on. It is a field that every state carries and no step changes, so a
statement about every state is a statement about every legal `BUF_SIZE` (D5: "a model quantifies over BUF_SIZE: exact").
`LATENCY` is open too, and no rule depends on it (R175): the model has no time. There is no free value on this hardware
(93_implementation_defined.md: "No behaviour of the block is left as `any value` or `stuck`"). -/

namespace Sys2Proof

/-- The configuration of one block. The size is counted from its least legal value, so that exactly the sizes of R9 can be
written: `5 <= BUF_SIZE <= 65535`. -/
structure Config where
  sizeAboveMin : Fin 65531
  deriving DecidableEq, Repr

/-- `BUF_SIZE`, the number of IBUF cells (R9, R23). -/
def Config.bufSize (c : Config) : Nat := c.sizeAboveMin.val + 5

/-- The configuration of `State.reset`: `BUF_SIZE = 300`. DESIGN CHOICE, unsafe, log 1: the spec leaves the size open. -/
def Config.atReset : Config := ⟨295⟩

end Sys2Proof
end

