-- ==== Sys2Proof/Machine/State.lean ====
section
/-! DEFINITION. The state of the frame codec and its host, as plain data (10_state.md).

Every cell of IBUF and of the result record "holds a value or *no value*" (R23, R26). That is the spec's own state, not a
missing reset value: completion takes values away again (R27), and R34 gives "no value" as the reset value (log 2). -/

namespace Sys2Proof.Machine

/-- What a step faults with (60_exceptions.md R156). A fault changes nothing. Both are safe: the spec itself gives the fault. -/
inductive Fault where
  /-- A read of an IBUF cell that holds no value: raised by CRC and DEC (R46) and by `HostReadIBUF` (R24). Safe. -/
  | unwrittenInput
  /-- A read of a result cell that holds no value: raised by `HostReadRes` (R28). Safe. -/
  | unwrittenResult
  deriving DecidableEq, Repr

/-- What a step is refused with (60_exceptions.md R155). A refusal changes nothing. All are safe: the spec gives the step no
meaning. -/
inductive Refusal where
  /-- An instruction without a meaning in this model. No arm of `exec` raises it. Safe. -/
  | notModelled (mnemonic : String)
  /-- R65: raised by a command word whose OP is 0x00 or 0x04..0xFF. Safe. -/
  | reservedOpcode
  /-- R66: raised by a command word with a known OP and nonzero reserved bits. Safe. -/
  | reservedBitsSet
  /-- R67: raised by a CRC or DEC command whose LEN exceeds `BUF_SIZE`. Safe. -/
  | lenExceedsBuffer
  /-- R24: raised by a host access to IBUF at an index of `BUF_SIZE` or more. Safe. -/
  | ibufIndexOutOfRange
  deriving DecidableEq, Repr

/-- The outcomes of a command (R29). -/
inductive Status where
  | ok
  | shortRead
  | malformedFrame
  | crcMismatch
  deriving DecidableEq, Repr

/-- The result record `res` (R26). Every cell holds a value or no value. -/
structure ResultRecord where
  /-- STATUS, u8. -/
  status : Option Byte
  /-- CRCOUT, u16. -/
  crcOut : Option Half
  /-- FRAME[0..7], byte 0 first on the wire. -/
  frame : Vector (Option Byte) 8
  /-- NVAL, u8. -/
  nval : Option Byte
  /-- VAL[0..126]. -/
  val : Vector (Option Half) 127
  deriving DecidableEq, Repr

/-- The record in which every cell holds no value (R27, R34). -/
def ResultRecord.blank : ResultRecord :=
  { status := none, crcOut := none, frame := .replicate 8 none, nval := none,
    val := .replicate 127 none }

/-- The cells of the result record that the host can name (R26, R28). -/
inductive ResultCell where
  | status
  | crcOut
  | frame (k : Fin 8)
  | nval
  | val (k : Fin 127)
  deriving DecidableEq, Repr

/-- The four moves of the host, "the only ones the model has" (R33). -/
inductive HostAction where
  /-- `HostWriteIBUF(i, b)` (R24). -/
  | writeIbuf (i : Nat) (b : Byte)
  /-- `HostReadIBUF(i)` (R24). -/
  | readIbuf (i : Nat)
  /-- `HostIssue(w)`: write `w` to CMD (R25). -/
  | issue (w : CommandWord)
  /-- `HostReadRes(F)` (R28). -/
  | readResult (F : ResultCell)
  deriving DecidableEq, Repr

/-- A value that a host read returns, of the width of the cell read (20_memory.md R48). -/
inductive Reply where
  | byte (b : Byte)
  | half (h : Half)
  deriving DecidableEq, Repr

/-- The host agent of R22 as plain data. The MODEL's own (log 3). -/
structure HostAgent where
  /-- The moves still to come, oldest first. -/
  script : List HostAction
  /-- The values its reads have returned, oldest first. -/
  received : List Reply
  deriving DecidableEq, Repr

/-- IBUF's contents: the cells that hold a byte, at strictly rising indices. A cell not listed holds no value (R23). -/
abbrev Memory := List Host.Cell

/-- The state of the block and its host. The transient accumulator, indices and counters of a command (R31) are not state:
they exist only inside one step. -/
structure State where
  /-- The block's `BUF_SIZE` (R9); no step changes it. -/
  cfg : Config
  /-- IBUF (R23). -/
  ibuf : Memory
  /-- CMD: the command in flight, if any (R25, R34). -/
  cmd : Option CommandWord
  /-- The result record (R26). -/
  res : ResultRecord
  /-- The host agent (R22). -/
  host : HostAgent
  deriving DecidableEq, Repr

/-- R34, R170: the state right after reset of a block of the given size, with a host that has done nothing. -/
def State.resetFor (c : Config) : State :=
  { cfg := c, ibuf := [], cmd := none, res := .blank, host := { script := [], received := [] } }

/-- R34, R170: the state right after reset. The size is a DESIGN CHOICE (log 1). -/
def State.reset : State := State.resetFor .atReset

end Sys2Proof.Machine
end

