-- ==== Sys2Proof/Machine/Flags.lean ====
section
/-! DEFINITION. The STATUS codes, the block's only status field (10_state.md R29), and the threshold of the short-read check.
There are no flags (R30). -/

namespace Sys2Proof.Machine

/-- The code of an outcome (R29; the numbers are the spec's decision D14). -/
def statusCode : Status → Byte
  | .ok => 0x00
  | .shortRead => 0x01
  | .malformedFrame => 0x02
  | .crcMismatch => 0x03

/-- `SHORT_READ_MIN` (00_scope.md R9, 42_response_decoder.md R122; the spec's decision D9). -/
def shortReadMin : Nat := 5

end Sys2Proof.Machine
end

