-- ==== Sys2Proof/Machine/Operands.lean ====
section
/-! DEFINITION. Splitting and assembling the values of frames (00_scope.md R10, 20_memory.md R43, R44), and the length operand
of CRC and DEC (30_encoding.md R67). -/

namespace Sys2Proof.Machine

/-- `lo8(v) = v[7:0]` (R10). -/
def lo8 (v : Half) : Byte := v.extractLsb' 0 8

/-- `hi8(v) = v[15:8]` (R10). -/
def hi8 (v : Half) : Byte := v.extractLsb' 8 8

/-- A register value, big-endian: `first * 256 + second` (R43, R125). -/
def bigEndian (first second : Byte) : Half := BitVec.ofNat 16 (first.toNat * 256 + second.toNat)

/-- A received CRC, low byte first: `zext_16(first) | (zext_16(second) << 8)` (R44, R124). -/
def lowFirst (first second : Byte) : Half := first.setWidth 16 ||| second.setWidth 16 <<< 8

/-- R67: a length above `BUF_SIZE` is refused before anything is read; otherwise the command goes on with the length as a
natural number (R63). -/
def whenLenFits (len : Half) (s : State) (go : Nat → Host.Outcome State Fault Refusal) :
    Host.Outcome State Fault Refusal :=
  if s.cfg.bufSize < len.toNat then .refused .lenExceedsBuffer else go len.toNat

end Sys2Proof.Machine
end

