-- ==== Sys2Proof/Machine/Ops.lean ====
section
/-! DEFINITION. The operations every step is made of: reads and writes of IBUF (20_memory.md R46, 10_state.md R24), completion
of a command (R27), the host's accesses (R24, R28) and reset (R170).

The block takes no exception (60_exceptions.md R150, R158): nothing is saved, no mode changes, and there is nothing to return
from. What other hardware does by a trap this one does by `State.complete` with an error code. -/

namespace Sys2Proof.Machine

/-! ## IBUF as data -/

/-- The cell at an index: a byte or no value (R23). -/
def Memory.read : Memory → Nat → Option Byte
  | [], _ => none
  | (j, b) :: m, i => if i = j then some b else Memory.read m i

/-- `IBUF[i] <- some(b)` (R24), keeping the indices strictly rising. -/
def Memory.write : Memory → Nat → Byte → Memory
  | [], i, b => [(i, b)]
  | (j, c) :: m, i, b =>
    if i < j then (i, b) :: (j, c) :: m
    else if i = j then (i, b) :: m
    else (j, c) :: Memory.write m i b

/-- The canonical form: strictly rising indices, so that equal contents are equal lists. -/
abbrev Memory.wf (m : Memory) : Prop := m.Pairwise fun x y => x.1 < y.1

/-- Every listed index is below `n` (R40: indices `0 .. BUF_SIZE-1`). -/
abbrev Memory.below (m : Memory) (n : Nat) : Prop := ∀ c ∈ m, c.1 < n

/-! ## Updates of the state, one per field -/

/-- Replace IBUF's contents. -/
def State.setIbuf (m : Memory) (s : State) : State := { s with ibuf := m }

/-- Write CMD, or clear it. -/
def State.setCmd (c : Option CommandWord) (s : State) : State := { s with cmd := c }

/-- Leave the host the given moves to make. -/
def State.setScript (acts : List HostAction) (s : State) : State :=
  { s with host := { s.host with script := acts } }

/-- Return a value to the host. -/
def State.reply (r : Reply) (s : State) : State :=
  { s with host := { s.host with received := s.host.received ++ [r] } }

/-- R27: completion ends the command and replaces the whole record. Every cell the command does not write holds no value. -/
def State.complete (st : Status) (own : ResultRecord → ResultRecord) (s : State) : State :=
  { s with cmd := none, res := own { ResultRecord.blank with status := some (statusCode st) } }

/-- R170: reset of a block that has been running. The host's own data stay (log 7). -/
def State.blockReset (s : State) : State := { s with ibuf := [], cmd := none, res := .blank }

/-! ## Reads by the block -/

/-- `MemRead(i, 1)`, written `IBUF[i]` (R46). -/
def readInput (s : State) (i : Nat) : Except Fault Byte :=
  match s.ibuf.read i with
  | some b => .ok b
  | none => .error .unwrittenInput

/-- `[IBUF[i], IBUF[i+1], ..., IBUF[i+n-1]]`, read in that order (R46). -/
def readInputs (s : State) (i : Nat) : Nat → Except Fault (List Byte)
  | 0 => .ok []
  | n + 1 => do
    let b ← readInput s i
    let bs ← readInputs s (i + 1) n
    return b :: bs

/-- `n` big-endian values from index `j` on (R43, R125), read in rising order. -/
def readValues (s : State) (j : Nat) : Nat → Except Fault (List Half)
  | 0 => .ok []
  | n + 1 => do
    let first ← readInput s j
    let second ← readInput s (j + 1)
    let vs ← readValues s (j + 2) n
    return bigEndian first second :: vs

/-- A command's reads as an outcome: a fault writes nothing (R156); otherwise the command goes on with what was read. -/
def afterReads {α : Type} (r : Except Fault α) (go : α → State) : Host.Outcome State Fault Refusal :=
  match r with
  | .ok a => .next (go a)
  | .error f => .fault f

/-! ## Host accesses -/

/-- `HostWriteIBUF(i, b)` (R24). -/
def hostWriteIbuf (i : Nat) (b : Byte) (s : State) : Host.Outcome State Fault Refusal :=
  if s.cfg.bufSize ≤ i then .refused .ibufIndexOutOfRange
  else .next (s.setIbuf (s.ibuf.write i b))

/-- `HostReadIBUF(i)` (R24): the byte goes to the host; nothing of the block changes (R48). -/
def hostReadIbuf (i : Nat) (s : State) : Host.Outcome State Fault Refusal :=
  if s.cfg.bufSize ≤ i then .refused .ibufIndexOutOfRange
  else afterReads (readInput s i) fun b => s.reply (.byte b)

/-- The content of a result cell, of the cell's own width (R26, R48), or no value. -/
def ResultRecord.read (r : ResultRecord) : ResultCell → Option Reply
  | .status => r.status.map .byte
  | .crcOut => r.crcOut.map .half
  | .frame k => r.frame[k].map .byte
  | .nval => r.nval.map .byte
  | .val k => r.val[k].map .half

/-- `HostReadRes(F)` (R28): the value goes to the host; nothing of the block changes (R48). -/
def hostReadResult (F : ResultCell) (s : State) : Host.Outcome State Fault Refusal :=
  match s.res.read F with
  | some v => .next (s.reply v)
  | none => .fault .unwrittenResult

/-! ## Refusals of the decoder -/

/-- The refusal that a decoding error raises (R65, R66). -/
def refusalOf : DecodeError → Refusal
  | .reservedOpcode => .reservedOpcode
  | .reservedBitsSet => .reservedBitsSet

end Sys2Proof.Machine
end

