-- ==== Sys2Proof/Machine/Crc.lean ====
section
/-! DEFINITION. The CRC-16 engine (40_crc.md R80 to R84) and the CRC command (R85). -/

namespace Sys2Proof.Machine

/-- One bit step (R80): bit 0 is tested before the shift, the shift is logical, the XOR comes after it. -/
def crcBit (acc : Half) : Half :=
  if acc.getLsbD 0 then (acc >>> 1) ^^^ 0xA001#16 else acc >>> 1

/-- `n` bit steps. -/
def crcBits : Nat → Half → Half
  | 0, acc => acc
  | n + 1, acc => crcBits n (crcBit acc)

/-- One byte step (R81): XOR the byte into the low 8 bits, then eight bit steps. -/
def crcByte (acc : Half) (b : Byte) : Half := crcBits 8 (acc ^^^ b.setWidth 16)

/-- `crc16` (R82): from the seed 0xFFFF, in sequence order, with no final XOR. The empty sequence is legal (R83). -/
def crc16 (bs : List Byte) : Half := bs.foldl crcByte 0xFFFF#16

/-- `exec_CRC(LEN)` (R85). -/
def execCrc (len : Half) (s : State) : Host.Outcome State Fault Refusal :=
  whenLenFits len s fun n =>
    afterReads (readInputs s 0 n) fun bs =>
      s.complete .ok fun r => { r with crcOut := some (crc16 bs) }

end Sys2Proof.Machine
end

