-- ==== Sys2Proof/Machine/Dec.lean ====
section
/-! DEFINITION. The response decoder (42_response_decoder.md R120 to R126) and the DEC command (R127, R128). -/

namespace Sys2Proof.Machine

/-- What decoding a response yields: one of the three error kinds (R151), or the register values in received order. -/
inductive Decoded where
  | failed (st : Status)
  | values (vs : List Half)
  deriving DecidableEq, Repr

/-- The number of register values of a declared byte count: `cnt div 2` (R125). -/
def valueCount (cnt : Byte) : Nat := cnt.toNat / 2

/-- `exec_DEC` up to its result (R127): the checks in the order SHORT_READ (R122), MALFORMED_FRAME (R123), CRC_MISMATCH (R124,
R126), then extraction (R125). `cnt + 5` is exact (D24). -/
def decodeResponse (s : State) (length : Nat) : Except Fault Decoded :=
  if length < shortReadMin then return .failed .shortRead
  else do
    let cnt ← readInput s 2
    if length < cnt.toNat + 5 then return .failed .malformedFrame
    else do
      let region ← readInputs s 0 (length - 2)
      let crcLo ← readInput s (length - 2)
      let crcHi ← readInput s (length - 1)
      if crc16 region ≠ lowFirst crcLo crcHi then return .failed .crcMismatch
      else do
        let vs ← readValues s 3 (valueCount cnt)
        return .values vs

/-- VAL[0..126] holding the given values from VAL[0] on; every other cell holds no value (R128). -/
def valueCells (vs : List Half) : Vector (Option Half) 127 :=
  ⟨⟨(List.range 127).map fun k => vs[k]?⟩, by simp⟩

/-- Completion of DEC (R128): on success STATUS, NVAL and VAL; on an error STATUS only. -/
def completeDec (s : State) : Decoded → State
  | .failed st => s.complete st fun r => r
  | .values vs =>
    s.complete .ok fun r =>
      { r with nval := some (BitVec.ofNat 8 vs.length), val := valueCells vs }

/-- `exec_DEC(length)` (R127). -/
def execDec (len : Half) (s : State) : Host.Outcome State Fault Refusal :=
  whenLenFits len s fun n => afterReads (decodeResponse s n) (completeDec s)

end Sys2Proof.Machine
end

