-- ==== Sys2Proof/Machine/Enc.lean ====
section
/-! DEFINITION. The request encoder (41_request_encoder.md R100, R101) and the ENC command (R102). -/

namespace Sys2Proof.Machine

/-- Bytes 0 to 5 of the request frame, "over which the CRC is computed" (R100). -/
def requestPayload (sa fc : Byte) (start count : Half) : List Byte :=
  [sa, fc, hi8 start, lo8 start, hi8 count, lo8 count]

/-- The eight bytes of the request frame (R100): the payload, then its CRC, low byte first (R43). -/
def requestFrame (sa fc : Byte) (start count : Half) : Vector Byte 8 :=
  #v[sa, fc, hi8 start, lo8 start, hi8 count, lo8 count,
    lo8 (crc16 (requestPayload sa fc start count)), hi8 (crc16 (requestPayload sa fc start count))]

/-- FRAME[0..7], each cell holding its byte. -/
def frameCells (f : Vector Byte 8) : Vector (Option Byte) 8 :=
  #v[some f[0], some f[1], some f[2], some f[3], some f[4], some f[5], some f[6], some f[7]]

/-- `exec_ENC(SA, FC, START, COUNT)` (R102): it validates nothing (R101) and reads no IBUF cell. -/
def execEnc (sa fc : Byte) (start count : Half) (s : State) : Host.Outcome State Fault Refusal :=
  .next (s.complete .ok fun r => { r with frame := frameCells (requestFrame sa fc start count) })

end Sys2Proof.Machine
end

