-- ==== Sys2Proof/Machine/Dispatch.lean ====
section
/-! DEFINITION. One arm for each command (30_encoding.md R64). -/

namespace Sys2Proof.Machine

-- CRC: 40_crc.md R85. ENC: 41_request_encoder.md R102. DEC: 42_response_decoder.md R127.
def exec (i : Instr) (s : State) : Host.Outcome State Fault Refusal :=
  match i with
  | .crc len => Sys2Proof.Machine.execCrc len s
  | .enc sa fc start count => Sys2Proof.Machine.execEnc sa fc start count s
  | .dec len => Sys2Proof.Machine.execDec len s

end Sys2Proof.Machine
end

