-- ==== Sys2Proof/Machine/Command.lean ====
section
/-! DEFINITION. Issuing a command (10_state.md R25) and the moves of the host (R33). -/

namespace Sys2Proof.Machine

/-- The block decodes the word in CMD and executes it, as one step (R25, R49): the checks of R68, then the command's rule. -/
def runCommand (w : CommandWord) (s : State) : Host.Outcome State Fault Refusal :=
  match decode w with
  | .ok i => exec i s
  | .error e => .refused (refusalOf e)

/-- One move of the host (R33). A write to CMD executes the command within the same step (R48, R49). -/
def perform (a : HostAction) (s : State) : Host.Outcome State Fault Refusal :=
  match a with
  | .writeIbuf i b => hostWriteIbuf i b s
  | .readIbuf i => hostReadIbuf i s
  | .issue w => runCommand w (s.setCmd (some w))
  | .readResult F => hostReadResult F s

end Sys2Proof.Machine
end

