-- ==== Sys2Proof/Machine/Step.lean ====
section
/-! DEFINITION. One step of the machine (10_state.md R22, 20_memory.md R49, R50). -/

namespace Sys2Proof.Machine

/-- A command standing in CMD runs first; otherwise the host makes its next move; otherwise nothing happens (log 4). The block
has no program counter and fetches nothing (R21): CMD is where the next command stands. -/
def step (s : State) : Host.Outcome State Fault Refusal :=
  match s.cmd with
  | some w => runCommand w s
  | none =>
    match s.host.script with
    | [] => .next s
    | a :: rest => perform a (s.setScript rest)

/-- The state with a table row's word standing in CMD, so that the next step runs it (log 5). -/
def State.withFetchWord (s : State) (nbits w : Nat) : State := s.setCmd (some (tableWord nbits w))

end Sys2Proof.Machine
end

