-- ==== Sys2Proof/Machine/Assembler.lean ====
section
/-! DEFINITION. The notation of host programs (30_encoding.md R69): statements, what each stands for, and their text. -/

namespace Sys2Proof.Machine

/-- The `F` of `RD F`, with its index as written. -/
inductive CellName where
  | status
  | crcOut
  | frame (k : Nat)
  | nval
  | val (k : Nat)
  deriving DecidableEq, Repr

/-- A statement of R69, with its numbers as written. -/
inductive Stmt where
  | crc (len : Nat)
  | enc (sa fc start count : Nat)
  | dec (len : Nat)
  | wr (i b : Nat)
  | rd (F : CellName)
  /-- `WRS i, b0 b1 ... bn`. -/
  | wrs (i b0 : Nat) (bs : List Nat)
  deriving DecidableEq, Repr

/-- The result cell of a name; an index with no cell is an error (log 8). -/
def CellName.resolve : CellName → Option ResultCell
  | .status => some .status
  | .crcOut => some .crcOut
  | .frame k => if h : k < 8 then some (.frame ⟨k, h⟩) else none
  | .nval => some .nval
  | .val k => if h : k < 127 then some (.val ⟨k, h⟩) else none

/-- `WR i, b`; a `b` that is no byte is an error (log 8). -/
def assembleWrite (i b : Nat) : Option HostAction :=
  if b ≤ 0xFF then some (.writeIbuf i (BitVec.ofNat 8 b)) else none

/-- `WR i, b0` / `WR i+1, b1` / ... (R69). -/
def assembleWrites (i : Nat) : List Nat → Option (List HostAction)
  | [] => some []
  | b :: bs => do
    let a ← assembleWrite i b
    let rest ← assembleWrites (i + 1) bs
    return a :: rest

/-- The host moves of a statement, or none for an assembly error (R69). -/
def Stmt.assemble : Stmt → Option (List HostAction)
  | .crc len =>
    if len ≤ 0xFFFF then some [.issue (encode (.crc (BitVec.ofNat 16 len)))] else none
  | .enc sa fc start count =>
    if sa ≤ 0xFF ∧ fc ≤ 0xFF ∧ start ≤ 0xFFFF ∧ count ≤ 0xFFFF then
      some [.issue (encode (.enc (BitVec.ofNat 8 sa) (BitVec.ofNat 8 fc) (BitVec.ofNat 16 start)
        (BitVec.ofNat 16 count)))]
    else none
  | .dec len =>
    if len ≤ 0xFFFF then some [.issue (encode (.dec (BitVec.ofNat 16 len)))] else none
  | .wr i b => (assembleWrite i b).map ([·])
  | .rd F => F.resolve.map fun c => [.readResult c]
  | .wrs i b0 bs => assembleWrites i (b0 :: bs)

/-- The host moves of a program: its statements' moves, in order. -/
def assembleProgram : List Stmt → Option (List HostAction)
  | [] => some []
  | st :: sts => do
    let acts ← st.assemble
    let rest ← assembleProgram sts
    return acts ++ rest

/-! ## The text: one statement a line, `;` starts a comment, numbers are decimal or `0x` hexadecimal (R69; log 9) -/

/-- A word that has been collected, if any. -/
def flushWord (word : List Char) : List (List Char) := if word.isEmpty then [] else [word]

/-- The words and commas of a line, up to its comment. -/
def lexLine (word : List Char) : List Char → List (List Char)
  | [] => flushWord word
  | c :: cs =>
    if c = ';' then flushWord word
    else if c = ' ' ∨ c = '\t' then flushWord word ++ lexLine [] cs
    else if c = ',' then flushWord word ++ [','] :: lexLine [] cs
    else lexLine (word ++ [c]) cs

/-- The value of a digit in the given base. -/
def digitValue (base : Nat) (c : Char) : Option Nat :=
  let n := c.toNat
  let v := if 48 ≤ n ∧ n ≤ 57 then n - 48
    else if 97 ≤ n ∧ n ≤ 102 then n - 87
    else if 65 ≤ n ∧ n ≤ 70 then n - 55
    else base
  if v < base then some v else none

/-- The number written by the digits, going on from `acc`. -/
def digitsValue (base acc : Nat) : List Char → Option Nat
  | [] => some acc
  | c :: cs => do
    let d ← digitValue base c
    digitsValue base (acc * base + d) cs

/-- A decimal or `0x` number. -/
def parseNumber : List Char → Option Nat
  | [] => none
  | '0' :: 'x' :: c :: cs => digitsValue 16 0 (c :: cs)
  | c :: cs => digitsValue 10 0 (c :: cs)

/-- Numbers separated by blanks only. -/
def parseNumbers : List (List Char) → Option (List Nat)
  | [] => some []
  | t :: ts => do
    let n ← parseNumber t
    let ns ← parseNumbers ts
    return n :: ns

/-- `name[k]`. -/
def parseIndexed (name word : List Char) : Option Nat :=
  if word.take (name.length + 1) = name ++ ['['] ∧ word.getLast? = some ']' then
    parseNumber (word.drop (name.length + 1)).dropLast
  else none

/-- The name of a result cell. -/
def parseCell (word : List Char) : Option CellName :=
  if word = ['S', 'T', 'A', 'T', 'U', 'S'] then some .status
  else if word = ['C', 'R', 'C', 'O', 'U', 'T'] then some .crcOut
  else if word = ['N', 'V', 'A', 'L'] then some .nval
  else match parseIndexed ['F', 'R', 'A', 'M', 'E'] word with
    | some k => some (.frame k)
    | none => (parseIndexed ['V', 'A', 'L'] word).map .val

/-- The statement of a line's words; no words, no statement. -/
def parseWords : List (List Char) → Option (List Stmt)
  | [] => some []
  | [op, x] =>
    if op = ['C', 'R', 'C'] then (parseNumber x).map fun n => [.crc n]
    else if op = ['D', 'E', 'C'] then (parseNumber x).map fun n => [.dec n]
    else if op = ['R', 'D'] then (parseCell x).map fun F => [.rd F]
    else none
  | [op, x, [','], y, [','], z, [','], u] => do
    let sa ← parseNumber x
    let fc ← parseNumber y
    let start ← parseNumber z
    let count ← parseNumber u
    if op = ['E', 'N', 'C'] then some [.enc sa fc start count] else none
  | op :: x :: [','] :: y :: ys => do
    let i ← parseNumber x
    let b ← parseNumber y
    let bs ← parseNumbers ys
    if op = ['W', 'R', 'S'] then some [.wrs i b bs]
    else if op = ['W', 'R'] ∧ bs = [] then some [.wr i b]
    else none
  | _ => none

/-- The statements of a program's lines. -/
def parseLines : List (List Char) → Option (List Stmt)
  | [] => some []
  | l :: ls => do
    let st ← parseWords (lexLine [] l)
    let sts ← parseLines ls
    return st ++ sts

/-- Cut a text at its line ends. -/
def splitLines (line : List Char) : List Char → List (List Char)
  | [] => [line]
  | c :: cs => if c = '\n' then line :: splitLines [] cs else splitLines (line ++ [c]) cs

/-- The host moves of a program text, or none for an error in it. -/
def assembleText (text : List Char) : Option (List HostAction) := do
  let sts ← parseLines (splitLines [] text)
  assembleProgram sts

end Sys2Proof.Machine
end

