-- ==== Sys2Proof/Machine/CrcForms.lean ====
section
/-! DEFINITION. Two other formulations of the CRC that 40_crc.md R86 admits only if they give the same result as `crc16` for
every input: the table-driven form, and the non-reflected polynomial 0x8005 with bit-reversed data. No instruction uses them. -/

namespace Sys2Proof.Machine

/-- The table of the table-driven form: the accumulator after eight bit steps from each low byte. -/
def crcTable : List Half := (List.range 256).map fun k => crcBits 8 (BitVec.ofNat 16 k)

/-- One byte of the table-driven form. -/
def crcByteByTable (acc : Half) (b : Byte) : Half :=
  (acc >>> 8) ^^^ crcTable.getD (lo8 acc ^^^ b).toNat 0#16

/-- The table-driven form. -/
def crc16ByTable (bs : List Byte) : Half := bs.foldl crcByteByTable 0xFFFF#16

/-- One bit step of the non-reflected form: shift left, divide by the polynomial 0x8005. -/
def polyBit (acc : Half) : Half :=
  if acc.getLsbD 15 then (acc <<< 1) ^^^ 0x8005#16 else acc <<< 1

/-- `n` bit steps of the non-reflected form. -/
def polyBits : Nat → Half → Half
  | 0, acc => acc
  | n + 1, acc => polyBits n (polyBit acc)

/-- One byte of the non-reflected form: the bits of the byte reversed, XORed into the high byte. -/
def polyByte (acc : Half) (b : Byte) : Half :=
  polyBits 8 (acc ^^^ b.reverse.setWidth 16 <<< 8)

/-- The non-reflected form: the bits of the final accumulator reversed. -/
def crc16NonReflected (bs : List Byte) : Half := (bs.foldl polyByte 0xFFFF#16).reverse

end Sys2Proof.Machine
end

