-- ==== Sys2Proof/Machine/Marks.lean ====
section
/-! DEFINITION. The refusal mark and the fault mark "on the whole model state" (60_exceptions.md R155, R156). A refused or
faulted step is an outcome of `step` and has no next state, so the marks stand beside the state (log 6). -/

namespace Sys2Proof.Machine

/-- A state with its two marks. -/
structure Marked where
  state : State
  /-- R155: the first refusal, if any. -/
  refusal : Option Refusal
  /-- R156: the first fault, if any. -/
  fault : Option Fault
  deriving DecidableEq, Repr

/-- A state that nothing has marked. -/
def Marked.fresh (s : State) : Marked := { state := s, refusal := none, fault := none }

/-- The state after a step that was refused or faulted: the move is over, and nothing of IBUF or the result record has changed
(R155, R156). -/
def State.dropMove (s : State) : State :=
  match s.cmd with
  | some _ => s.setCmd none
  | none => s.setScript s.host.script.tail

/-- A mark once set is kept. -/
def keepMark {α : Type} (mark : Option α) (reason : α) : Option α :=
  match mark with
  | some r => some r
  | none => some reason

/-- One step of a marked state: "no later step clears" a mark (R155), "the fault mark is never cleared" (R156). -/
def Marked.advance (m : Marked) : Marked :=
  match step m.state with
  | .next s => { m with state := s }
  | .refused r => { m with state := m.state.dropMove, refusal := keepMark m.refusal r }
  | .fault f => { m with state := m.state.dropMove, fault := keepMark m.fault f }

/-- `k` steps of a marked state. -/
def Marked.advances : Nat → Marked → Marked
  | 0, m => m
  | k + 1, m => Marked.advances k m.advance

/-- The end of a run: nothing is left to do and no mark is set ("A faulted state is never final", R156). -/
def Marked.final (m : Marked) : Bool :=
  m.state.cmd.isNone && m.state.host.script.isEmpty && m.refusal.isNone && m.fault.isNone

end Sys2Proof.Machine
end

