-- ==== Sys2Proof/WellFormed.lean ====
section
/-! DEFINITION. Which commands have a meaning on a block of a given configuration (30_encoding.md R67). Every operand fits its
field by its type (R63), and ENC validates nothing (41_request_encoder.md R101), so the one check is the length of R67. -/

namespace Sys2Proof

/-- R67: the length of a CRC or DEC command must not exceed `BUF_SIZE`; an ENC command is always well formed (R101). -/
def Instr.wellFormed (c : Config) : Instr → Bool
  | .crc len => decide (len.toNat ≤ c.bufSize)
  | .enc _ _ _ _ => true
  | .dec len => decide (len.toNat ≤ c.bufSize)

end Sys2Proof
end

