-- ==== Sys2Proof/Safety.lean ====
section
/-! DEFINITION. The terms that claims about the frame codec are stated in. -/

namespace Sys2Proof.Machine

/-- `IBUF[0 .. len(bs))` holds the bytes `bs`. -/
abbrev State.HoldsInput (s : State) (bs : List Byte) : Prop :=
  ∀ k < bs.length, s.ibuf.read k = bs[k]?

/-- Cell `k` of IBUF holds a value. -/
abbrev State.Written (s : State) (k : Nat) : Prop := (s.ibuf.read k).isSome = true

/-- The bytes a command reads have been written (70_reset_and_hazards.md R171). -/
abbrev InputReady : Instr → State → Prop
  | .crc len, s => ∀ k < len.toNat, s.Written k
  | .enc _ _ _ _, _ => True
  | .dec len, s =>
    5 ≤ len.toNat → s.Written 2 ∧
      (((s.ibuf.read 2).getD 0).toNat + 5 ≤ len.toNat → ∀ k < len.toNat, s.Written k)

/-- How many IBUF cells a command may read: `IBUF[0 .. LEN)` for CRC and DEC, none for ENC (R85, R102, R131). -/
def inputLength : Instr → Nat
  | .crc len => len.toNat
  | .enc _ _ _ _ => 0
  | .dec len => len.toNat

/-- The cells of the result record that a command of this kind writes when it completes with the given STATUS code and NVAL
(10_state.md R26, 42_response_decoder.md R128). -/
def writesCell (i : Instr) (status nval : Option Byte) : ResultCell → Bool
  | .status => true
  | .crcOut => i.mnemonic == "CRC"
  | .frame _ => i.mnemonic == "ENC"
  | .nval => i.mnemonic == "DEC" && status == some 0x00
  | .val k => i.mnemonic == "DEC" && status == some 0x00 && decide (k.val < (nval.getD 0).toNat)

/-- The command word that the next step executes, if it executes one (R25). -/
def State.nextCommand (s : State) : Option CommandWord :=
  match s.cmd, s.host.script with
  | some w, _ => some w
  | none, .issue w :: _ => some w
  | none, _ => none

/-- The host's next access, if the next step is one that is not a command. -/
def State.nextAccess (s : State) : Option HostAction :=
  match s.cmd, s.host.script with
  | some _, _ => none
  | none, .issue _ :: _ => none
  | none, a :: _ => some a
  | none, [] => none

/-- What can stand in the result record (10_state.md R26 to R29). -/
structure ResultRecord.Legal (r : ResultRecord) : Prop where
  /-- R29: "Codes 0x04..0xFF are never written." -/
  status_known : r.status ∈ [none, some 0x00, some 0x01, some 0x02, some 0x03]
  /-- R34, R128: without the code OK, no other cell holds a value. -/
  values_need_ok : r.status ≠ some 0x00 →
    r.crcOut = none ∧ (∀ k : Fin 8, r.frame[k] = none) ∧ r.nval = none
  /-- R26, R27: with the code OK, exactly one command's cells hold values. -/
  one_result : r.status = some 0x00 →
    (r.crcOut.isSome ∧ (∀ k : Fin 8, r.frame[k] = none) ∧ r.nval = none) ∨
    (r.crcOut = none ∧ (∀ k : Fin 8, r.frame[k].isSome) ∧ r.nval = none) ∨
    (r.crcOut = none ∧ (∀ k : Fin 8, r.frame[k] = none) ∧ r.nval.isSome)
  /-- R26, R128: NVAL is at most 127, and exactly `VAL[0 .. NVAL)` hold values. -/
  values_counted : ∀ n, r.nval = some n →
    n.toNat ≤ 127 ∧ ∀ k : Fin 127, r.val[k].isSome = decide (k.val < n.toNat)
  /-- R26: without NVAL, no VAL cell holds a value. -/
  no_values : r.nval = none → ∀ k : Fin 127, r.val[k] = none

/-- The invariant of the machine: IBUF is in canonical form, its cells lie below `BUF_SIZE` (R40), and the result record is
legal. -/
structure State.Inv (s : State) : Prop where
  ibuf_canonical : s.ibuf.wf
  ibuf_in_range : s.ibuf.below s.cfg.bufSize
  result_legal : s.res.Legal

/-- What the latest of some host moves left in cell `i`, given what was there before them (20_memory.md R50). -/
def latestWrite (i : Nat) (before : Option Byte) : List HostAction → Option Byte
  | [] => before
  | .writeIbuf j b :: acts => latestWrite i (if j = i then some b else before) acts
  | .readIbuf _ :: acts => latestWrite i before acts
  | .issue _ :: acts => latestWrite i before acts
  | .readResult _ :: acts => latestWrite i before acts

end Sys2Proof.Machine
end

