-- ==== Sys2Proof/Certificates/Slice0/Obligations.lean ====
section
/-! DEFINITION. The statements for the provers. "The spec's decision D<n>" marks what 92_eei_decisions.md says is the spec's own
choice rather than the source's; "log <n>" marks what is this model's choice. -/

open Sys2Proof Sys2Proof.Machine

/-! ## Encoding -/

/-- 30_encoding.md sections 2, 3 and 5: every command, with every operand at every value its field admits, is read back from
its word. -/
def Obligations.DecodeOfEncodeIsTheCommand : Prop :=
  ∀ i : Instr, decode (encode i) = .ok i

/-- 30_encoding.md sections 2, 3 and 5: a word that is a command is the only word of that command. -/
def Obligations.EncodeOfDecodeIsTheWord : Prop :=
  ∀ (w : CommandWord) (i : Instr), decode w = .ok i → encode i = w

/-- R64 (the spec's decision D3): a word is a command exactly when it matches a row; its command is that row's; at most one row
matches. -/
def Obligations.WordIsCommandExactlyWhenARowMatches : Prop :=
  opcodeTable.map (fun r => (r.mnemonic, r.mask, r.matchWord)) =
    [("CRC", 0xFFFFFFFFFF0000FF#64, 0x0000000000000001#64),
     ("ENC", 0xFF000000000000FF#64, 0x0000000000000002#64),
     ("DEC", 0xFFFFFFFFFF0000FF#64, 0x0000000000000003#64)] ∧
  (∀ w : CommandWord,
    (∃ i, decode w = .ok i) ↔ ∃ r ∈ opcodeTable, w &&& r.mask = r.matchWord) ∧
  (∀ (w : CommandWord) (i : Instr), decode w = .ok i →
    ∃ r ∈ opcodeTable, r.mnemonic = i.mnemonic ∧ w &&& r.mask = r.matchWord) ∧
  (∀ w : CommandWord, ∀ r ∈ opcodeTable, ∀ q ∈ opcodeTable,
    w &&& r.mask = r.matchWord → w &&& q.mask = q.matchWord → r = q)

/-- R61, R62, R63 (the spec's decisions D3, D4, D6): each operand of a decoded word is its field, bit for bit, and the reserved
bits are 0. -/
def Obligations.OperandsAreTheFieldsOfTheWord : Prop :=
  (∀ (w : CommandWord) (len : Half), decode w = .ok (.crc len) →
    w.toNat % 2 ^ 8 = 0x01 ∧ len.toNat = w.toNat / 2 ^ 8 % 2 ^ 16 ∧ w.toNat / 2 ^ 24 = 0) ∧
  (∀ (w : CommandWord) (sa fc : Byte) (start count : Half),
    decode w = .ok (.enc sa fc start count) →
    w.toNat % 2 ^ 8 = 0x02 ∧ sa.toNat = w.toNat / 2 ^ 8 % 2 ^ 8 ∧
    fc.toNat = w.toNat / 2 ^ 16 % 2 ^ 8 ∧ start.toNat = w.toNat / 2 ^ 24 % 2 ^ 16 ∧
    count.toNat = w.toNat / 2 ^ 40 % 2 ^ 16 ∧ w.toNat / 2 ^ 56 = 0) ∧
  (∀ (w : CommandWord) (len : Half), decode w = .ok (.dec len) →
    w.toNat % 2 ^ 8 = 0x03 ∧ len.toNat = w.toNat / 2 ^ 8 % 2 ^ 16 ∧ w.toNat / 2 ^ 24 = 0)

/-- 30_encoding.md section 5, the worked encodings: a sanity check of the decoder on words written out in the spec. -/
def Obligations.WorkedEncodingsDecode : Prop :=
  decode 0x0000010001030102#64 = .ok (.enc 0x01 0x03 0x0001 0x0001) ∧
  decode 0x000003006B031102#64 = .ok (.enc 0x11 0x03 0x006B 0x0003) ∧
  decode 0x0000000000000601#64 = .ok (.crc 6) ∧
  decode 0x0000000000000703#64 = .ok (.dec 7)

/-- 30_encoding.md section 5 (the spec's decision D22): what each statement of a host program stands for, and the assembly
errors. That `WR` with a value that is no byte, and `RD` of a cell that does not exist, are errors is this model's reading (log 8). -/
def Obligations.StatementsStandForHostMoves : Prop :=
  (∀ len, len ≤ 0xFFFF → (Stmt.crc len).assemble = some [.issue (0x01#64 ||| BitVec.ofNat 64 len <<< 8)]) ∧
  (∀ len, len ≤ 0xFFFF → (Stmt.dec len).assemble = some [.issue (0x03#64 ||| BitVec.ofNat 64 len <<< 8)]) ∧
  (∀ sa fc start count, sa ≤ 0xFF → fc ≤ 0xFF → start ≤ 0xFFFF → count ≤ 0xFFFF →
    (Stmt.enc sa fc start count).assemble =
      some [.issue (0x02#64 ||| BitVec.ofNat 64 sa <<< 8 ||| BitVec.ofNat 64 fc <<< 16 |||
        BitVec.ofNat 64 start <<< 24 ||| BitVec.ofNat 64 count <<< 40)]) ∧
  (∀ len, 0xFFFF < len → (Stmt.crc len).assemble = none ∧ (Stmt.dec len).assemble = none) ∧
  (∀ sa fc start count, 0xFF < sa ∨ 0xFF < fc ∨ 0xFFFF < start ∨ 0xFFFF < count →
    (Stmt.enc sa fc start count).assemble = none) ∧
  (∀ i b, b ≤ 0xFF → (Stmt.wr i b).assemble = some [.writeIbuf i (BitVec.ofNat 8 b)]) ∧
  (∀ i b0 bs, (∀ b ∈ b0 :: bs, b ≤ 0xFF) → ∃ acts, (Stmt.wrs i b0 bs).assemble = some acts ∧
    acts.length = bs.length + 1 ∧
    ∀ k b, (b0 :: bs)[k]? = some b → acts[k]? = some (HostAction.writeIbuf (i + k) (BitVec.ofNat 8 b))) ∧
  (Stmt.rd .status).assemble = some [.readResult .status] ∧
  (Stmt.rd .crcOut).assemble = some [.readResult .crcOut] ∧
  (Stmt.rd .nval).assemble = some [.readResult .nval] ∧
  (∀ k : Fin 8, (Stmt.rd (.frame k)).assemble = some [.readResult (.frame k)]) ∧
  (∀ k : Fin 127, (Stmt.rd (.val k)).assemble = some [.readResult (.val k)])

/-! ## Steps, refusals, faults -/

/-- 10_state.md section 4, 20_memory.md section 3: a step runs the decoded command, whether it stands in CMD or the host issues it
now. That the word stands in `cmd` between the write and the execution is this model's choice (log 5). -/
def Obligations.StepRunsTheDecodedCommand : Prop :=
  (∀ (s : State) (w : CommandWord) (i : Instr), s.cmd = some w → decode w = .ok i →
    step s = exec i s) ∧
  (∀ (s : State) (w : CommandWord) (i : Instr) (rest : List HostAction), s.cmd = none →
    s.host.script = .issue w :: rest → decode w = .ok i →
    step s = exec i { s with cmd := some w, host := { s.host with script := rest } })

/-- 10_state.md sections 2 and 7: the host takes steps beside the block, by its four moves. That these moves are a list in the
state, of which a step performs the head with that move taken off, is this model's choice (log 3); that with no move left nothing
changes is too (log 4). -/
def Obligations.StepMakesTheHostsNextMove : Prop :=
  (∀ (s : State) (a : HostAction) (rest : List HostAction), s.cmd = none →
    s.host.script = a :: rest →
    step s = perform a { s with host := { s.host with script := rest } }) ∧
  (∀ s : State, s.cmd = none → s.host.script = [] → step s = .next s)

/-- R66, R67, R68 (the spec's decisions D4, D5): the three checks of a command word, in their order; a word that passes them is
executed by its rule, is not refused, and is no no-op: it leaves a STATUS. -/
def Obligations.CommandWordsAreCheckedInOrder : Prop :=
  ∀ (s : State) (w : CommandWord), s.cmd = some w →
    (¬ (w.toNat % 2 ^ 8 = 0x01 ∨ w.toNat % 2 ^ 8 = 0x02 ∨ w.toNat % 2 ^ 8 = 0x03) →
      step s = .refused .reservedOpcode) ∧
    ((w.toNat % 2 ^ 8 = 0x01 ∨ w.toNat % 2 ^ 8 = 0x03) ∧ w.toNat / 2 ^ 24 ≠ 0 →
      step s = .refused .reservedBitsSet) ∧
    (w.toNat % 2 ^ 8 = 0x02 ∧ w.toNat / 2 ^ 56 ≠ 0 → step s = .refused .reservedBitsSet) ∧
    ((w.toNat % 2 ^ 8 = 0x01 ∨ w.toNat % 2 ^ 8 = 0x03) ∧ w.toNat / 2 ^ 24 = 0 ∧
      s.cfg.bufSize < w.toNat / 2 ^ 8 % 2 ^ 16 → step s = .refused .lenExceedsBuffer) ∧
    (((w.toNat % 2 ^ 8 = 0x01 ∨ w.toNat % 2 ^ 8 = 0x03) ∧ w.toNat / 2 ^ 24 = 0 ∧
        w.toNat / 2 ^ 8 % 2 ^ 16 ≤ s.cfg.bufSize) ∨
      (w.toNat % 2 ^ 8 = 0x02 ∧ w.toNat / 2 ^ 56 = 0) →
      ∃ i, decode w = .ok i ∧ step s = exec i s ∧ (∀ r, step s ≠ .refused r) ∧
        ∀ t, step s = .next t → t.res.status.isSome = true)

/-- 60_exceptions.md section 2: which steps are refused and with which reason; a refused step changes neither IBUF nor the result
record nor the configuration; it sets the refusal mark, and no later step clears it. That the marks stand beside the state, and that a
run goes on after one, is this model's choice (log 6). -/
def Obligations.RefusedStepSetsTheMarkOnly : Prop :=
  (∀ (s : State) (r : Refusal), step s = .refused r ↔
    (∃ w, s.nextCommand = some w ∧
      ((w.toNat % 2 ^ 8 ∉ [0x01, 0x02, 0x03] ∧ r = .reservedOpcode) ∨
       (((w.toNat % 2 ^ 8 ∈ [0x01, 0x03] ∧ w.toNat / 2 ^ 24 ≠ 0) ∨
         (w.toNat % 2 ^ 8 = 0x02 ∧ w.toNat / 2 ^ 56 ≠ 0)) ∧ r = .reservedBitsSet) ∨
       ∃ i, decode w = .ok i ∧ i.wellFormed s.cfg = false ∧ r = .lenExceedsBuffer)) ∨
    (∃ i, (s.nextAccess = some (.readIbuf i) ∨ ∃ b, s.nextAccess = some (.writeIbuf i b)) ∧
      s.cfg.bufSize ≤ i ∧ r = .ibufIndexOutOfRange)) ∧
  (∀ (m : Marked) (r : Refusal), step m.state = .refused r →
    m.advance.state.ibuf = m.state.ibuf ∧ m.advance.state.res = m.state.res ∧
    m.advance.state.cfg = m.state.cfg ∧ m.advance.fault = m.fault ∧
    m.advance.refusal = some (m.refusal.getD r)) ∧
  (∀ (m : Marked) (r : Refusal) (k : Nat), m.refusal = some r → (m.advances k).refusal = some r)

/-- 60_exceptions.md section 2: which steps fault and with which reason; a faulting step changes neither IBUF nor the result
record nor the configuration; it sets the fault mark, which is never cleared; a faulted state is never final. That the marks stand
beside the state, and that a run goes on after one, is this model's choice (log 6). -/
def Obligations.FaultingStepSetsTheMarkOnly : Prop :=
  (∀ s : State, step s = .fault .unwrittenResult ↔
    ∃ F, s.nextAccess = some (.readResult F) ∧ s.res.read F = none) ∧
  (∀ s : State, step s = .fault .unwrittenInput ↔
    (∃ w i, s.nextCommand = some w ∧ decode w = .ok i ∧ i.wellFormed s.cfg = true ∧
      ¬ InputReady i s) ∨
    (∃ i, s.nextAccess = some (.readIbuf i) ∧ i < s.cfg.bufSize ∧ s.ibuf.read i = none)) ∧
  (∀ (m : Marked) (f : Fault), step m.state = .fault f →
    m.advance.state.ibuf = m.state.ibuf ∧ m.advance.state.res = m.state.res ∧
    m.advance.state.cfg = m.state.cfg ∧ m.advance.refusal = m.refusal ∧
    m.advance.fault = some (m.fault.getD f)) ∧
  (∀ (m : Marked) (f : Fault) (k : Nat), m.fault = some f →
    (m.advances k).fault = some f ∧ (m.advances k).final = false)

/-- 20_memory.md section 3: a command is one step, so after any step no command is in flight (that `cmd` holds the command is
this model's choice, log 5). -/
def Obligations.NoCommandIsInFlightAfterAStep : Prop :=
  ∀ s t : State, step s = .next t → t.cmd = none

/-! ## Reset and the invariant -/

/-- 10_state.md section 8, 70_reset_and_hazards.md sections 1 and 2 (R34, R170, R171; the spec's decision D16), for every legal
`BUF_SIZE`: after reset no cell holds a value and no command is in flight, and the commands that read no input complete at once
(CRC with LEN = 0, DEC with LEN = 0, ENC with every operand). That the reset of a running block is the operation
`State.blockReset`, and that it keeps the size of the block, is this model's choice (log 7). -/
def Obligations.ResetLeavesNoValueAnywhere : Prop :=
  (∀ c : Config, (State.resetFor c).cfg = c ∧ (State.resetFor c).cmd = none ∧
    (∀ i, (State.resetFor c).ibuf.read i = none) ∧
    ∀ F, (State.resetFor c).res.read F = none) ∧
  (∀ s : State, s.blockReset.cfg = s.cfg ∧ s.blockReset.cmd = none ∧
    (∀ i, s.blockReset.ibuf.read i = none) ∧ ∀ F, s.blockReset.res.read F = none) ∧
  (∃ c : Config, State.reset = State.resetFor c) ∧
  (∀ (c : Config) (sa fc : Byte) (start count : Half),
    (∃ t, exec (.crc 0) (State.resetFor c) = .next t) ∧
    (∃ t, exec (.enc sa fc start count) (State.resetFor c) = .next t) ∧
    ∃ t, exec (.dec 0) (State.resetFor c) = .next t)

/-- 10_state.md sections 3, 5 and 8: the invariant holds right after reset, for every legal `BUF_SIZE`. -/
def Obligations.InvariantHoldsAtReset : Prop :=
  State.reset.Inv ∧ ∀ c : Config, (State.resetFor c).Inv

/-- 10_state.md sections 3 and 5: every step keeps IBUF canonical and within `BUF_SIZE`, and the result record legal. -/
def Obligations.EveryStepKeepsTheInvariant : Prop :=
  ∀ s t : State, s.Inv → step s = .next t → t.Inv

/-! ## Host accesses and order -/

/-- R24 (the spec's decisions D5, D13): host writes and reads of IBUF (a value read goes to the host's own list, log 3); no move but a write of a cell changes that cell, and no
command changes any; a command that must read a cell with no value faults. -/
def Obligations.HostAccessToIbuf : Prop :=
  (∀ (s : State) (i : Nat) (b : Byte), s.cfg.bufSize ≤ i →
    perform (.writeIbuf i b) s = .refused .ibufIndexOutOfRange ∧
    perform (.readIbuf i) s = .refused .ibufIndexOutOfRange) ∧
  (∀ (s : State) (i : Nat) (b : Byte), i < s.cfg.bufSize →
    ∃ m, perform (.writeIbuf i b) s = .next { s with ibuf := m } ∧
      m.read i = some b ∧ ∀ j, j ≠ i → m.read j = s.ibuf.read j) ∧
  (∀ (s : State) (i : Nat), i < s.cfg.bufSize → s.ibuf.read i = none →
    perform (.readIbuf i) s = .fault .unwrittenInput) ∧
  (∀ (s : State) (i : Nat) (b : Byte), i < s.cfg.bufSize → s.ibuf.read i = some b →
    perform (.readIbuf i) s =
      .next { s with host := { s.host with received := s.host.received ++ [.byte b] } }) ∧
  (∀ (s t : State) (i : Nat), step s = .next t →
    (∀ b, s.nextAccess ≠ some (.writeIbuf i b)) → t.ibuf.read i = s.ibuf.read i) ∧
  (∀ (s : State) (i : Nat), s.ibuf.read i = none → readInput s i = .error .unwrittenInput)

/-- R28 (the spec's decision D13): a host read of a result cell returns its value (to the host's own list, log 3), or faults if it
holds none; in particular `VAL[0]` after a DEC that ended in CRC_MISMATCH and `FRAME[0]` after a CRC command. -/
def Obligations.HostReadsOfResultCells : Prop :=
  (∀ (s : State) (F : ResultCell) (v : Reply), s.res.read F = some v →
    perform (.readResult F) s =
      .next { s with host := { s.host with received := s.host.received ++ [v] } }) ∧
  (∀ (s : State) (F : ResultCell), s.res.read F = none →
    perform (.readResult F) s = .fault .unwrittenResult) ∧
  (∀ (s t : State) (len : Half), exec (.dec len) s = .next t → t.res.status = some 0x03 →
    perform (.readResult (.val 0)) t = .fault .unwrittenResult) ∧
  (∀ (s t : State) (len : Half), exec (.crc len) s = .next t →
    perform (.readResult (.frame 0)) t = .fault .unwrittenResult)

/-- 20_memory.md section 3 (the values read go to the host's own list, log 3): a host read returns a value of its cell's width, changes nothing else, and can be repeated with
the same value; a host write of IBUF changes nothing but IBUF. -/
def Obligations.HostAccessesHaveNoSideEffects : Prop :=
  (∀ (s t : State) (i : Nat), perform (.readIbuf i) s = .next t →
    ∃ b : Byte, t = { s with host := { s.host with received := s.host.received ++ [.byte b] } } ∧
      perform (.readIbuf i) t =
        .next { t with host := { t.host with received := t.host.received ++ [.byte b] } }) ∧
  (∀ (s t : State) (F : ResultCell), perform (.readResult F) s = .next t →
    ∃ v : Reply, t = { s with host := { s.host with received := s.host.received ++ [v] } } ∧
      perform (.readResult F) t =
        .next { t with host := { t.host with received := t.host.received ++ [v] } } ∧
      match F with
      | .status => ∃ b, v = .byte b
      | .crcOut => ∃ h, v = .half h
      | .frame _ => ∃ b, v = .byte b
      | .nval => ∃ b, v = .byte b
      | .val _ => ∃ h, v = .half h) ∧
  (∀ (s t : State) (i : Nat) (b : Byte), perform (.writeIbuf i b) s = .next t →
    t.cfg = s.cfg ∧ t.cmd = s.cmd ∧ t.res = s.res ∧ t.host = s.host)

/-- 20_memory.md section 4: over any run of the host's moves, every IBUF cell holds the latest write to it, or what it held before if
there was none; with no command among the moves, the result record is what the latest command left. That the host's moves are a list in
the state is this model's choice (log 3). -/
def Obligations.CellsHoldTheLatestWrite : Prop :=
  ∀ (s t : State) (k : Nat), s.cmd = none → Sys2Proof.core.run k s = .next t →
    (∀ i, t.ibuf.read i = latestWrite i (s.ibuf.read i) (s.host.script.take k)) ∧
    ((∀ w, HostAction.issue w ∉ s.host.script.take k) → t.res = s.res)

/-! ## Every command -/

/-- 10_state.md section 3, 20_memory.md section 1, 60_exceptions.md section 1: a command that completes (with an error code or without)
changes no cell of IBUF, not the configuration, and nothing of the host; it ends. -/
def Obligations.CommandsChangeOnlyTheResultRecord : Prop :=
  ∀ (i : Instr) (s t : State), exec i s = .next t →
    t.ibuf = s.ibuf ∧ (∀ a, t.ibuf.read a = s.ibuf.read a) ∧ t.cfg = s.cfg ∧
    t.host = s.host ∧ t.cmd = none

/-- R27 (the spec's decision D13): after a command completes, exactly the cells the command wrote hold a value; every other cell,
whatever it held before, holds none. -/
def Obligations.CompletionReplacesTheRecord : Prop :=
  ∀ (i : Instr) (s t : State) (F : ResultCell), exec i s = .next t →
    (t.res.read F).isSome = writesCell i t.res.status t.res.nval F

/-- 10_state.md section 6, 42_response_decoder.md section 3: two states that agree on `BUF_SIZE` and on the cells below the command's
length give the same result record, or both stop for the same reason, whatever else they hold. -/
def Obligations.ResultDependsOnlyOnTheInput : Prop :=
  ∀ (i : Instr) (s u : State), s.cfg = u.cfg →
    (∀ k < inputLength i, s.ibuf.read k = u.ibuf.read k) →
    (∃ t v, exec i s = .next t ∧ exec i u = .next v ∧ t.res = v.res) ∨
    (∃ f, exec i s = .fault f ∧ exec i u = .fault f) ∨
    (∃ r, exec i s = .refused r ∧ exec i u = .refused r)

/-- R171 (the spec's decision D16): a command whose length fits completes exactly when the bytes it reads have been written, and
otherwise faults with UnwrittenInput; ENC needs nothing. -/
def Obligations.CommandCompletesExactlyWhenItsInputIsWritten : Prop :=
  (∀ (i : Instr) (s : State), i.wellFormed s.cfg = true → InputReady i s →
    ∃ t, exec i s = .next t) ∧
  (∀ (i : Instr) (s : State), i.wellFormed s.cfg = true → ¬ InputReady i s →
    exec i s = .fault .unwrittenInput) ∧
  (∀ (sa fc : Byte) (start count : Half) (s : State),
    ∃ t, exec (.enc sa fc start count) s = .next t)

/-- R151 (the spec's decisions D9, D14): CRC and ENC end with the code 0x00; DEC ends with each error code exactly for its cause,
and an error records the code only. -/
def Obligations.ErrorCodesHaveTheirCauses : Prop :=
  (∀ (len : Half) (s t : State), exec (.crc len) s = .next t → t.res.status = some 0x00) ∧
  (∀ (sa fc : Byte) (start count : Half) (s t : State),
    exec (.enc sa fc start count) s = .next t → t.res.status = some 0x00) ∧
  (∀ (len : Half) (s t : State), exec (.dec len) s = .next t →
    (t.res.status = some 0x01 ↔ len.toNat < 5) ∧
    (t.res.status = some 0x02 ↔ 5 ≤ len.toNat ∧
      ∃ cnt, s.ibuf.read 2 = some cnt ∧ len.toNat < cnt.toNat + 5) ∧
    (t.res.status = some 0x03 ↔ ∃ (region : List Byte) (lo hi cnt : Byte), len.toNat = region.length + 2 ∧
      s.HoldsInput (region ++ [lo, hi]) ∧ s.ibuf.read 2 = some cnt ∧ cnt.toNat + 5 ≤ len.toNat ∧
      crc16 region ≠ lo.setWidth 16 ||| hi.setWidth 16 <<< 8) ∧
    (t.res.status ≠ some 0x00 → ∃ st, t.res = { ResultRecord.blank with status := some st }))

/-! ## CRC -/

/-- R80, over the numbers: bit 0 is tested before the shift, the shift is logical, the XOR with 0xA001 comes after it. -/
def Obligations.CrcBitStep : Prop :=
  ∀ acc : Half, (crcBit acc).toNat =
    if acc.toNat % 2 = 1 then (acc.toNat / 2) ^^^ 0xA001 else acc.toNat / 2

/-- R81: the byte is XORed into bits 7..0 only, and exactly eight bit steps follow. -/
def Obligations.CrcByteStep : Prop :=
  ∀ (acc : Half) (b : Byte), crcByte acc b = crcBit^[8] (acc ^^^ b.setWidth 16) ∧
    (acc ^^^ b.setWidth 16).toNat / 256 = acc.toNat / 256 ∧
    (acc ^^^ b.setWidth 16).toNat % 256 = acc.toNat % 256 ^^^ b.toNat

/-- R82, R83: the seed is 0xFFFF, which is also the CRC of the empty sequence; the bytes are taken in index order; the final
accumulator is the result. -/
def Obligations.CrcOfASequence : Prop :=
  crc16 [] = 0xFFFF#16 ∧
  (∀ (bs : List Byte) (b : Byte), crc16 (bs ++ [b]) = crcByte (crc16 bs) b)

/-- 40_crc.md section 3, laws (a) and (b): appending the low byte of the CRC leaves its high byte; appending both bytes, low
first, leaves 0. -/
def Obligations.AppendingTheCrcLeavesZero : Prop :=
  ∀ m : List Byte,
    crc16 (m ++ [(crc16 m).extractLsb' 0 8]) = ((crc16 m).extractLsb' 8 8).setWidth 16 ∧
    crc16 (m ++ [(crc16 m).extractLsb' 0 8, (crc16 m).extractLsb' 8 8]) = 0x0000#16

/-- 40_crc.md section 3: the table-driven form gives the same 16-bit result for every input. The table is built from the bit step,
so this does not pin the polynomial; `NonReflectedFormAgrees` does. -/
def Obligations.TableDrivenFormAgrees : Prop :=
  ∀ bs : List Byte, crc16ByTable bs = crc16 bs

/-- 40_crc.md section 3, 00_scope.md section 1: the non-reflected polynomial 0x8005 with bit-reversed data gives the same 16-bit
result for every input. -/
def Obligations.NonReflectedFormAgrees : Prop :=
  ∀ bs : List Byte, crc16NonReflected bs = crc16 bs

/-- R85 (the spec's decisions D3, D5): the CRC command's word, result, fault, refusal, corner cases and example. -/
def Obligations.CrcCommandFollowsItsRule : Prop :=
  (∀ len : Half, encode (.crc len) = 0x01#64 ||| len.setWidth 64 <<< 8) ∧
  (∀ w : CommandWord, (∃ len, decode w = .ok (.crc len)) ↔
    w &&& 0xFFFFFFFFFF0000FF#64 = 0x0000000000000001#64) ∧
  (∀ (s : State) (len : Half) (bs : List Byte), len.toNat ≤ s.cfg.bufSize →
    bs.length = len.toNat → s.HoldsInput bs →
    exec (.crc len) s = .next { s with
      cmd := none
      res := { ResultRecord.blank with status := some 0x00, crcOut := some (crc16 bs) } }) ∧
  (∀ (s : State) (len : Half), len.toNat ≤ s.cfg.bufSize →
    (∃ k < len.toNat, s.ibuf.read k = none) → exec (.crc len) s = .fault .unwrittenInput) ∧
  (∀ (s : State) (len : Half), s.cfg.bufSize < len.toNat →
    exec (.crc len) s = .refused .lenExceedsBuffer) ∧
  (∀ s : State, exec (.crc 0) s = .next { s with
      cmd := none
      res := { ResultRecord.blank with status := some 0x00, crcOut := some 0xFFFF } }) ∧
  (∀ s : State, 6 ≤ s.cfg.bufSize → s.HoldsInput [0x01, 0x03, 0x00, 0x01, 0x00, 0x01] →
    ∃ t, exec (.crc 6) s = .next t ∧ t.res.crcOut = some 0xCAD5)

/-! ## ENC -/

/-- R100, R101, R102 (the spec's decisions D3, D13): ENC completes in every state with every operand; the eight bytes of the
frame, the CRC over bytes 0 to 5 low byte first; the word; the spec's corner cases and example. -/
def Obligations.EncCommandFollowsItsRule : Prop :=
  (∀ (sa fc : Byte) (start count : Half), encode (.enc sa fc start count) =
    0x02#64 ||| sa.setWidth 64 <<< 8 ||| fc.setWidth 64 <<< 16 ||| start.setWidth 64 <<< 24 |||
      count.setWidth 64 <<< 40) ∧
  (∀ w : CommandWord, (∃ sa fc start count, decode w = .ok (.enc sa fc start count)) ↔
    w &&& 0xFF000000000000FF#64 = 0x0000000000000002#64) ∧
  (∀ (s : State) (sa fc : Byte) (start count : Half), ∃ f : Vector (Option Byte) 8,
    exec (.enc sa fc start count) s = .next { s with
      cmd := none
      res := { ResultRecord.blank with status := some 0x00, frame := f } } ∧
    f[0] = some sa ∧ f[1] = some fc ∧
    f[2] = some (BitVec.ofNat 8 (start.toNat / 256)) ∧
    f[3] = some (BitVec.ofNat 8 (start.toNat % 256)) ∧
    f[4] = some (BitVec.ofNat 8 (count.toNat / 256)) ∧
    f[5] = some (BitVec.ofNat 8 (count.toNat % 256)) ∧
    ∃ payload : List Byte, payload.length = 6 ∧ (∀ k : Fin 6, payload[k.val]? = f[k.val]) ∧
      f[6] = some (BitVec.ofNat 8 ((crc16 payload).toNat % 256)) ∧
      f[7] = some (BitVec.ofNat 8 ((crc16 payload).toNat / 256))) ∧
  (∀ s : State, ∃ t, exec (.enc 0x00 0x00 0x0000 0x0000) s = .next t ∧
    t.res.frame = #v[some 0x00, some 0x00, some 0x00, some 0x00, some 0x00, some 0x00, some 0x00, some 0x1B]) ∧
  (∀ s : State, ∃ t, exec (.enc 0xFF 0xFF 0xFFFF 0xFFFF) s = .next t ∧
    t.res.frame = #v[some 0xFF, some 0xFF, some 0xFF, some 0xFF, some 0xFF, some 0xFF, some 0x01, some 0x94]) ∧
  (∀ s : State, ∃ t, exec (.enc 0x01 0x03 0x0001 0x0001) s = .next t ∧
    t.res.frame = #v[some 0x01, some 0x03, some 0x00, some 0x01, some 0x00, some 0x01, some 0xD5, some 0xCA])

/-- 41_request_encoder.md section 3: the CRC of bytes 0 to 5 of every produced frame is its bytes 6 and 7, low byte first. -/
def Obligations.FrameCarriesItsOwnCrc : Prop :=
  ∀ (s : State) (sa fc : Byte) (start count : Half), ∃ (t : State) (payload : List Byte) (lo hi : Byte),
    exec (.enc sa fc start count) s = .next t ∧
    t.res.frame.toList = (payload ++ [lo, hi]).map some ∧ payload.length = 6 ∧
    crc16 payload = lo.setWidth 16 ||| hi.setWidth 16 <<< 8

/-- 41_request_encoder.md section 3: two distinct operand tuples give distinct frames. -/
def Obligations.DistinctOperandsGiveDistinctFrames : Prop :=
  ∀ (s t u v : State) (sa sa' fc fc' : Byte) (start start' count count' : Half),
    exec (.enc sa fc start count) s = .next t → exec (.enc sa' fc' start' count') u = .next v →
    t.res.frame = v.res.frame → sa = sa' ∧ fc = fc' ∧ start = start' ∧ count = count'

/-- 41_request_encoder.md section 3: a produced request frame, copied into IBUF and decoded with `DEC 8`, decodes as a response whose
byte count is the high byte of START. -/
def Obligations.RequestFrameDecodesAsAResponse : Prop :=
  ∀ (u v s : State) (sa fc : Byte) (start count : Half),
    exec (.enc sa fc start count) u = .next v → 8 ≤ s.cfg.bufSize →
    (∀ k : Fin 8, s.ibuf.read k = v.res.frame[k]) →
    (start.toNat / 256 < 2 → exec (.dec 8) s = .next { s with
      cmd := none
      res := { ResultRecord.blank with status := some 0x00, nval := some 0 } }) ∧
    (2 ≤ start.toNat / 256 ∧ start.toNat / 256 < 4 → ∃ vals : Vector (Option Half) 127,
      exec (.dec 8) s = .next { s with
        cmd := none
        res := { ResultRecord.blank with status := some 0x00, nval := some 1, val := vals } } ∧
      vals[0] = some (BitVec.ofNat 16 (start.toNat % 256 * 256 + count.toNat / 256)) ∧
      ∀ k : Fin 127, 0 < k.val → vals[k] = none) ∧
    (4 ≤ start.toNat / 256 → exec (.dec 8) s = .next { s with
      cmd := none
      res := { ResultRecord.blank with status := some 0x02 } })

/-! ## DEC -/

/-- R122 (the threshold 5 is the spec's decision D9): below five bytes DEC completes with SHORT_READ in every state, whatever IBUF
holds. -/
def Obligations.ShortResponseIsAShortRead : Prop :=
  ∀ (s : State) (len : Half), len.toNat < 5 → exec (.dec len) s = .next { s with
    cmd := none
    res := { ResultRecord.blank with status := some 0x01 } }

/-- R123 (exact arithmetic is the spec's decision D24): five bytes or more but fewer than declared is MALFORMED_FRAME; only `IBUF[2]`
is read. -/
def Obligations.TruncatedResponseIsMalformed : Prop :=
  ∀ (s : State) (len : Half) (cnt : Byte), 5 ≤ len.toNat → len.toNat ≤ s.cfg.bufSize →
    s.ibuf.read 2 = some cnt → len.toNat < cnt.toNat + 5 →
    exec (.dec len) s = .next { s with
      cmd := none
      res := { ResultRecord.blank with status := some 0x02 } }

/-- R124, R126 (the spec's decisions D8, D11, D12): the CRC of all bytes but the last two, compared with the last two, low byte
first; if they differ, DEC completes with CRC_MISMATCH and outputs no values. -/
def Obligations.WrongCrcIsACrcMismatch : Prop :=
  ∀ (s : State) (len : Half) (region : List Byte) (lo hi cnt : Byte),
    len.toNat = region.length + 2 → len.toNat ≤ s.cfg.bufSize →
    s.HoldsInput (region ++ [lo, hi]) → region[2]? = some cnt → cnt.toNat + 5 ≤ len.toNat →
    crc16 region ≠ lo.setWidth 16 ||| hi.setWidth 16 <<< 8 →
    exec (.dec len) s = .next { s with
      cmd := none
      res := { ResultRecord.blank with status := some 0x03 } }

/-- R125, R128 (the spec's decisions D13, D15): a response that passes every check completes with OK, NVAL = cnt div 2, and the
big-endian values in received order; no other cell holds a value; with any other code only STATUS holds one. -/
def Obligations.ValidResponseYieldsItsValues : Prop :=
  (∀ (s t : State) (len : Half), exec (.dec len) s = .next t → t.res.status ≠ some 0x00 →
    ∃ st, t.res = { ResultRecord.blank with status := some st }) ∧
  ∀ (s : State) (len : Half) (region : List Byte) (lo hi cnt : Byte),
    len.toNat = region.length + 2 → len.toNat ≤ s.cfg.bufSize →
    s.HoldsInput (region ++ [lo, hi]) → region[2]? = some cnt → cnt.toNat + 5 ≤ len.toNat →
    crc16 region = lo.setWidth 16 ||| hi.setWidth 16 <<< 8 →
    ∃ vals : Vector (Option Half) 127,
      exec (.dec len) s = .next { s with
        cmd := none
        res := { ResultRecord.blank with
          status := some 0x00
          nval := some (BitVec.ofNat 8 (cnt.toNat / 2))
          val := vals } } ∧
      ∀ k : Fin 127,
        (k.val < cnt.toNat / 2 → ∃ a b v, region[2 * k.val + 3]? = some a ∧
          region[2 * k.val + 4]? = some b ∧ vals[k] = some v ∧
          v.toNat = a.toNat * 256 + b.toNat) ∧
        (cnt.toNat / 2 ≤ k.val → vals[k] = none)

/-- R127 (the spec's decisions D3, D10): the DEC command's word, refusal, faults, the order of its checks, its results and its
example. -/
def Obligations.DecCommandFollowsItsRule : Prop :=
  (∀ len : Half, encode (.dec len) = 0x03#64 ||| len.setWidth 64 <<< 8) ∧
  (∀ w : CommandWord, (∃ len, decode w = .ok (.dec len)) ↔
    w &&& 0xFFFFFFFFFF0000FF#64 = 0x0000000000000003#64) ∧
  (∀ (s : State) (len : Half), s.cfg.bufSize < len.toNat →
    exec (.dec len) s = .refused .lenExceedsBuffer) ∧
  (∀ (s : State) (len : Half), 5 ≤ len.toNat → len.toNat ≤ s.cfg.bufSize →
    s.ibuf.read 2 = none → exec (.dec len) s = .fault .unwrittenInput) ∧
  (∀ (s : State) (len : Half) (cnt : Byte), len.toNat ≤ s.cfg.bufSize →
    s.ibuf.read 2 = some cnt → cnt.toNat + 5 ≤ len.toNat →
    (∃ k < len.toNat, s.ibuf.read k = none) → exec (.dec len) s = .fault .unwrittenInput) ∧
  (∀ (s : State) (len : Half) (bs : List Byte), len.toNat ≤ s.cfg.bufSize →
    bs.length = len.toNat → s.HoldsInput bs →
    ∃ (code : Byte) (nval : Option Byte) (vals : Vector (Option Half) 127),
      exec (.dec len) s = .next { s with
        cmd := none
        res := { ResultRecord.blank with status := some code, nval := nval, val := vals } } ∧
      code =
        (if bs.length < 5 then 0x01
         else if bs.length < (bs.getD 2 0).toNat + 5 then 0x02
         else if crc16 (bs.take (bs.length - 2)) ≠
            (bs.getD (bs.length - 2) 0).setWidth 16 ||| (bs.getD (bs.length - 1) 0).setWidth 16 <<< 8
          then 0x03
         else 0x00) ∧
      (code = 0x00 → nval = some (BitVec.ofNat 8 ((bs.getD 2 0).toNat / 2)) ∧
        ∀ k : Fin 127, vals[k] =
          if k.val < (bs.getD 2 0).toNat / 2 then
            some (BitVec.ofNat 16
              ((bs.getD (2 * k.val + 3) 0).toNat * 256 + (bs.getD (2 * k.val + 4) 0).toNat))
          else none) ∧
      (code ≠ 0x00 → nval = none ∧ ∀ k : Fin 127, vals[k] = none)) ∧
  (∀ s : State, 7 ≤ s.cfg.bufSize → s.HoldsInput [0x01, 0x03, 0x02, 0x00, 0x7B, 0xF8, 0x67] →
    ∃ t, exec (.dec 7) s = .next t ∧ t.res.status = some 0x00 ∧ t.res.nval = some 1 ∧
      t.res.val[0] = some 0x007B)

/-- 42_response_decoder.md section 4: a response shorter than five bytes or than its declared length never decodes as OK. -/
def Obligations.TruncatedResponseNeverSucceeds : Prop :=
  ∀ (s : State) (len : Half), len.toNat ≤ s.cfg.bufSize →
    (len.toNat < 5 ∨ ∃ cnt, s.ibuf.read 2 = some cnt ∧ len.toNat < cnt.toNat + 5) →
    ∃ t, exec (.dec len) s = .next t ∧
      (t.res.status = some 0x01 ∨ t.res.status = some 0x02) ∧ t.res.status ≠ some 0x00

/-- 42_response_decoder.md section 4: flipping any single bit of either CRC byte of a response that decodes with OK makes DEC complete with
CRC_MISMATCH. -/
def Obligations.FlippedCrcBitIsAMismatch : Prop :=
  ∀ (s t : State) (len : Half) (j k : Nat) (b : Byte),
    exec (.dec len) s = .next t → t.res.status = some 0x00 →
    (j = len.toNat - 2 ∨ j = len.toNat - 1) → s.ibuf.read j = some b → k < 8 →
    exec (.dec len) { s with ibuf := s.ibuf.write j (b ^^^ (1#8 <<< k)) } =
      .next { s with
        ibuf := s.ibuf.write j (b ^^^ (1#8 <<< k))
        cmd := none
        res := { ResultRecord.blank with status := some 0x03 } }

/-- 42_response_decoder.md section 3, the corner cases: a response that decodes with OK, followed by one 0x00 byte, decodes with the same
result. -/
def Obligations.TrailingZeroKeepsAResponseValid : Prop :=
  ∀ (s t : State) (len : Half), exec (.dec len) s = .next t → t.res.status = some 0x00 →
    len.toNat + 1 ≤ s.cfg.bufSize → s.ibuf.read len.toNat = some 0x00 →
    exec (.dec (len + 1)) s = .next t

/-- 42_response_decoder.md section 3: an exception response is read by the same layout as any other. -/
def Obligations.ExceptionResponseIsMalformed : Prop :=
  ∀ s : State, s.HoldsInput [0x01, 0x83, 0x02, 0xC0, 0xF1] →
    ∃ t, exec (.dec 5) s = .next t ∧ t.res.status = some 0x02
end

