-- ==== Sys2Proof/Laws/Crc.lean ====
section
/-! SUPPORT. The small lemmas of the CRC-16 engine (40_crc.md R80 to R83). -/

namespace Sys2Proof.Machine

@[simp] theorem crcBits_zero (acc : Half) : crcBits 0 acc = acc := rfl

@[simp] theorem crcBits_succ (n : Nat) (acc : Half) :
    crcBits (n + 1) acc = crcBits n (crcBit acc) := rfl

/-- Bit steps compose. -/
theorem crcBits_add (m n : Nat) (acc : Half) :
    crcBits (m + n) acc = crcBits n (crcBits m acc) := by
  induction m generalizing acc with
  | zero => simp
  | succ m ih => rw [Nat.succ_add, crcBits_succ, ih, crcBits_succ]

/-- A bit step of an even accumulator only shifts (R80). -/
theorem crcBit_even {acc : Half} (h : acc.getLsbD 0 = false) : crcBit acc = acc >>> 1 :=
  if_neg (Bool.eq_false_iff.1 h)

/-- A bit step of an odd accumulator shifts, then XORs (R80). -/
theorem crcBit_odd {acc : Half} (h : acc.getLsbD 0 = true) :
    crcBit acc = (acc >>> 1) ^^^ 0xA001#16 :=
  if_pos h

/-- A bit step distributes over XOR: the constant is XORed in exactly when bit 0 is set. -/
theorem crcBit_xor (a b : Half) : crcBit (a ^^^ b) = crcBit a ^^^ crcBit b := by
  unfold crcBit
  rw [BitVec.getLsbD_xor, BitVec.ushiftRight_xor_distrib]
  cases a.getLsbD 0 <;> cases b.getLsbD 0 <;> simp
  · rw [BitVec.xor_assoc]
  · rw [BitVec.xor_assoc, BitVec.xor_assoc]
    congr 1
    exact BitVec.xor_comm ..
  · rw [BitVec.xor_assoc, BitVec.xor_comm 0xA001#16, BitVec.xor_assoc (b >>> 1),
      BitVec.xor_self, BitVec.xor_zero]

/-- Bit steps distribute over XOR. -/
theorem crcBits_xor (n : Nat) (a b : Half) :
    crcBits n (a ^^^ b) = crcBits n a ^^^ crcBits n b := by
  induction n generalizing a b with
  | zero => rfl
  | succ n ih => rw [crcBits_succ, crcBit_xor, ih, crcBits_succ, crcBits_succ]

@[simp] theorem crc16_nil : crc16 [] = 0xFFFF#16 := rfl

/-- The bytes are taken in sequence order (R82): the last byte is the last step. -/
theorem crc16_append (as bs : List Byte) : crc16 (as ++ bs) = bs.foldl crcByte (crc16 as) :=
  List.foldl_append

end Sys2Proof.Machine
end

