-- ==== Sys2Proof/Laws/Decode.lean ====
section
/-! SUPPORT. What the decoder can answer, said once (30_encoding.md R64 to R66). -/

namespace Sys2Proof

/-- The words that are commands, and which. -/
theorem decode_ok {w : CommandWord} {i : Instr} : decode w = .ok i ↔
    (opField w = 1#8 ∧ rsvFieldL w = 0#40 ∧ i = .crc (lenField w)) ∨
    (opField w = 2#8 ∧ rsvFieldE w = 0#8 ∧
      i = .enc (saField w) (fcField w) (startField w) (countField w)) ∨
    (opField w = 3#8 ∧ rsvFieldL w = 0#40 ∧ i = .dec (lenField w)) := by
  unfold decode
  split
  · rename_i h
    rw [h]
    split <;> rename_i h' <;> simp [h', @eq_comm _ i]
  · split
    · rename_i h
      rw [h]
      split <;> rename_i h' <;> simp [h', @eq_comm _ i]
    · split
      · rename_i h
        rw [h]
        split <;> rename_i h' <;> simp [h', @eq_comm _ i]
      · simp [*]

/-- R65: the words refused for their opcode. -/
theorem decode_reservedOpcode {w : CommandWord} : decode w = .error .reservedOpcode ↔
    opField w ≠ 1#8 ∧ opField w ≠ 2#8 ∧ opField w ≠ 3#8 := by
  unfold decode
  split
  · split <;> simp [*]
  · split
    · split <;> simp [*]
    · split
      · split <;> simp [*]
      · simp [*]

/-- R66: the words refused for their reserved bits. -/
theorem decode_reservedBitsSet {w : CommandWord} : decode w = .error .reservedBitsSet ↔
    ((opField w = 1#8 ∨ opField w = 3#8) ∧ rsvFieldL w ≠ 0#40) ∨
    (opField w = 2#8 ∧ rsvFieldE w ≠ 0#8) := by
  unfold decode
  split
  · rename_i h
    rw [h]
    split <;> simp [*]
  · split
    · rename_i h
      rw [h]
      split <;> simp [*]
    · split
      · rename_i h
        rw [h]
        split <;> simp [*]
      · simp [*]

end Sys2Proof
end

