-- ==== Sys2Proof/Laws/Memory.lean ====
section
/-! SUPPORT. IBUF as data: a read after a write, every other cell left alone, and the canonical form kept. -/

namespace Sys2Proof.Machine

@[simp] theorem Memory.read_nil (i : Nat) : Memory.read [] i = none := rfl

theorem Memory.read_cons (j : Nat) (b : Byte) (m : Memory) (i : Nat) :
    Memory.read ((j, b) :: m) i = if i = j then some b else Memory.read m i := rfl

/-- A write is read back, and leaves every other cell as it was. -/
theorem Memory.read_write (m : Memory) (i j : Nat) (b : Byte) :
    (m.write i b).read j = if j = i then some b else m.read j := by
  induction m with
  | nil => rfl
  | cons c m ih =>
    obtain ⟨k, d⟩ := c
    by_cases hlt : i < k
    · simp [Memory.write, hlt, Memory.read_cons]
    · by_cases heq : i = k
      · subst heq
        simp only [Memory.write, lt_irrefl, if_false, if_true, Memory.read_cons]
        split <;> rfl
      · simp only [Memory.write, hlt, heq, if_false, Memory.read_cons, ih]
        by_cases hjk : j = k
        · simp [hjk, Ne.symm heq]
        · simp [hjk]

/-- The indices listed after a write: those listed before, and the one written. -/
theorem Memory.mem_write {m : Memory} {i : Nat} {b : Byte} {c : Host.Cell}
    (h : c ∈ m.write i b) : c = (i, b) ∨ c ∈ m := by
  induction m with
  | nil => simpa [Memory.write] using h
  | cons d m ih =>
    obtain ⟨k, e⟩ := d
    simp only [Memory.write] at h
    split at h
    · simpa using h
    · split at h
      · rcases List.mem_cons.1 h with h | h
        · exact .inl h
        · exact .inr (List.mem_cons_of_mem _ h)
      · rcases List.mem_cons.1 h with h | h
        · exact .inr (h ▸ List.mem_cons_self)
        · exact (ih h).imp id (List.mem_cons_of_mem _)

/-- A write keeps the indices strictly rising. -/
theorem Memory.write_wf {m : Memory} (h : m.wf) (i : Nat) (b : Byte) : (m.write i b).wf := by
  induction m with
  | nil => simp [Memory.write]
  | cons c m ih =>
    obtain ⟨k, d⟩ := c
    obtain ⟨hk, hm⟩ := List.pairwise_cons.1 h
    simp only [Memory.write]
    split
    · refine List.pairwise_cons.2 ⟨fun x hx => ?_, h⟩
      rcases List.mem_cons.1 hx with rfl | hx
      · assumption
      · exact lt_trans ‹_› (hk x hx)
    · split
      · subst_vars
        exact List.pairwise_cons.2 ⟨hk, hm⟩
      · refine List.pairwise_cons.2 ⟨fun x hx => ?_, ih hm⟩
        rcases Memory.mem_write hx with rfl | hx
        · simp only
          omega
        · exact hk x hx

/-- A write below a bound keeps every listed index below it. -/
theorem Memory.write_below {m : Memory} {n i : Nat} (h : m.below n) (hi : i < n) (b : Byte) :
    (m.write i b).below n := fun _ hc =>
  (Memory.mem_write hc).elim (fun e => e ▸ hi) (h _)

/-- A cell at or past the bound of every listed index holds no value. -/
theorem Memory.read_eq_none_of_below {m : Memory} {n i : Nat} (h : m.below n) (hi : n ≤ i) :
    m.read i = none := by
  induction m with
  | nil => rfl
  | cons c m ih =>
    have hc : c.1 < n := h c List.mem_cons_self
    rw [show c = (c.1, c.2) from rfl, Memory.read_cons, if_neg (by omega)]
    exact ih fun x hx => h x (List.mem_cons_of_mem _ hx)

/-- A cell below every listed index holds no value. -/
theorem Memory.read_eq_none_of_lt {m : Memory} {i : Nat} (h : ∀ c ∈ m, i < c.1) :
    m.read i = none := by
  induction m with
  | nil => rfl
  | cons c m ih =>
    have hc : i < c.1 := h c List.mem_cons_self
    rw [show c = (c.1, c.2) from rfl, Memory.read_cons, if_neg (by omega)]
    exact ih fun x hx => h x (List.mem_cons_of_mem _ hx)

/-- In canonical form, equal contents are equal lists. -/
theorem Memory.ext_of_wf {m n : Memory} (hm : m.wf) (hn : n.wf)
    (h : ∀ i, m.read i = n.read i) : m = n := by
  induction m generalizing n with
  | nil =>
    cases n with
    | nil => rfl
    | cons d n =>
      obtain ⟨k, e⟩ := d
      simpa [Memory.read_cons] using h k
  | cons c m ih =>
    obtain ⟨j, b⟩ := c
    obtain ⟨hj, hm'⟩ := List.pairwise_cons.1 hm
    cases n with
    | nil => simpa [Memory.read_cons] using h j
    | cons d n =>
      obtain ⟨k, e⟩ := d
      obtain ⟨hk, hn'⟩ := List.pairwise_cons.1 hn
      have mj : Memory.read m j = none := Memory.read_eq_none_of_lt hj
      have nk : Memory.read n k = none := Memory.read_eq_none_of_lt hk
      have hjk : j = k := by
        rcases Nat.lt_trichotomy j k with hlt | heq | hgt
        · have := h j
          rw [Memory.read_cons, if_pos rfl, Memory.read_cons, if_neg (by omega),
            Memory.read_eq_none_of_lt fun c hc => lt_trans hlt (hk c hc)] at this
          cases this
        · exact heq
        · have := h k
          rw [Memory.read_cons, if_neg (by omega), Memory.read_cons, if_pos rfl,
            Memory.read_eq_none_of_lt fun c hc => lt_trans hgt (hj c hc)] at this
          cases this
      subst hjk
      have hbe : b = e := by simpa [Memory.read_cons] using h j
      subst hbe
      rw [ih hm' hn' fun i => ?_]
      by_cases hi : i = j
      · rw [hi, mj, nk]
      · simpa [Memory.read_cons, hi] using h i

/-- IBUF right after reset is in canonical form, and so it is after a reset of a running block. -/
theorem resetFor_ibuf_wf (c : Config) : (State.resetFor c).ibuf.wf := List.Pairwise.nil

theorem blockReset_ibuf_wf (s : State) : s.blockReset.ibuf.wf := List.Pairwise.nil

end Sys2Proof.Machine
end

