-- ==== Sys2Proof/Laws/State.lean ====
section
/-! SUPPORT. One lemma per field per update of the state, so that no proof unfolds a record update. -/

namespace Sys2Proof.Machine

section
variable (s : State) (m : Memory) (c : Option CommandWord) (acts : List HostAction) (r : Reply)
  (st : Status) (own : ResultRecord → ResultRecord)

@[simp] theorem State.setIbuf_cfg : (s.setIbuf m).cfg = s.cfg := rfl
@[simp] theorem State.setIbuf_ibuf : (s.setIbuf m).ibuf = m := rfl
@[simp] theorem State.setIbuf_cmd : (s.setIbuf m).cmd = s.cmd := rfl
@[simp] theorem State.setIbuf_res : (s.setIbuf m).res = s.res := rfl
@[simp] theorem State.setIbuf_host : (s.setIbuf m).host = s.host := rfl

@[simp] theorem State.setCmd_cfg : (s.setCmd c).cfg = s.cfg := rfl
@[simp] theorem State.setCmd_ibuf : (s.setCmd c).ibuf = s.ibuf := rfl
@[simp] theorem State.setCmd_cmd : (s.setCmd c).cmd = c := rfl
@[simp] theorem State.setCmd_res : (s.setCmd c).res = s.res := rfl
@[simp] theorem State.setCmd_host : (s.setCmd c).host = s.host := rfl

@[simp] theorem State.setScript_cfg : (s.setScript acts).cfg = s.cfg := rfl
@[simp] theorem State.setScript_ibuf : (s.setScript acts).ibuf = s.ibuf := rfl
@[simp] theorem State.setScript_cmd : (s.setScript acts).cmd = s.cmd := rfl
@[simp] theorem State.setScript_res : (s.setScript acts).res = s.res := rfl
@[simp] theorem State.setScript_script : (s.setScript acts).host.script = acts := rfl
@[simp] theorem State.setScript_received :
    (s.setScript acts).host.received = s.host.received := rfl

@[simp] theorem State.reply_cfg : (s.reply r).cfg = s.cfg := rfl
@[simp] theorem State.reply_ibuf : (s.reply r).ibuf = s.ibuf := rfl
@[simp] theorem State.reply_cmd : (s.reply r).cmd = s.cmd := rfl
@[simp] theorem State.reply_res : (s.reply r).res = s.res := rfl
@[simp] theorem State.reply_script : (s.reply r).host.script = s.host.script := rfl
@[simp] theorem State.reply_received : (s.reply r).host.received = s.host.received ++ [r] := rfl

@[simp] theorem State.complete_cfg : (s.complete st own).cfg = s.cfg := rfl
@[simp] theorem State.complete_ibuf : (s.complete st own).ibuf = s.ibuf := rfl
@[simp] theorem State.complete_cmd : (s.complete st own).cmd = none := rfl
@[simp] theorem State.complete_res : (s.complete st own).res =
    own { ResultRecord.blank with status := some (statusCode st) } := rfl
@[simp] theorem State.complete_host : (s.complete st own).host = s.host := rfl

@[simp] theorem State.blockReset_cfg : s.blockReset.cfg = s.cfg := rfl
@[simp] theorem State.blockReset_ibuf : s.blockReset.ibuf = [] := rfl
@[simp] theorem State.blockReset_cmd : s.blockReset.cmd = none := rfl
@[simp] theorem State.blockReset_res : s.blockReset.res = .blank := rfl
@[simp] theorem State.blockReset_host : s.blockReset.host = s.host := rfl

end

/-! The blank record. -/

@[simp] theorem ResultRecord.blank_status : ResultRecord.blank.status = none := rfl
@[simp] theorem ResultRecord.blank_crcOut : ResultRecord.blank.crcOut = none := rfl
@[simp] theorem ResultRecord.blank_nval : ResultRecord.blank.nval = none := rfl
@[simp] theorem ResultRecord.blank_frame : ResultRecord.blank.frame = .replicate 8 none := rfl
@[simp] theorem ResultRecord.blank_val : ResultRecord.blank.val = .replicate 127 none := rfl

end Sys2Proof.Machine
end

