-- ==== Sys2Proof/Laws/Ops.lean ====
section
/-! SUPPORT. What each shared operation can do, said once. -/

namespace Sys2Proof.Machine

/-! ## Reads by the block (R46) -/

theorem readInput_ok {s : State} {i : Nat} {b : Byte} :
    readInput s i = .ok b ↔ s.ibuf.read i = some b := by
  unfold readInput
  cases s.ibuf.read i <;> simp

theorem readInput_error {s : State} {i : Nat} {f : Fault} :
    readInput s i = .error f ↔ f = .unwrittenInput ∧ s.ibuf.read i = none := by
  unfold readInput
  cases s.ibuf.read i <;> simp [eq_comm]

@[simp] theorem readInputs_zero (s : State) (i : Nat) : readInputs s i 0 = .ok [] := rfl

theorem readInputs_succ (s : State) (i n : Nat) : readInputs s i (n + 1) =
    (readInput s i >>= fun b => readInputs s (i + 1) n >>= fun bs => .ok (b :: bs)) := rfl

/-- A read of `n` cells succeeds exactly when each holds a byte, and gives those bytes in order. -/
theorem readInputs_ok {s : State} {i n : Nat} {bs : List Byte} :
    readInputs s i n = .ok bs ↔ bs.length = n ∧ ∀ k < n, s.ibuf.read (i + k) = bs[k]? := by
  induction n generalizing i bs with
  | zero => cases bs <;> simp
  | succ n ih =>
    rw [readInputs_succ]
    cases hb : readInput s i with
    | error f =>
      have hn := (readInput_error.1 hb).2
      simp only [bind, Except.bind, reduceCtorEq, false_iff, not_and]
      intro hl h
      have h0 := h 0 (by omega)
      rw [Nat.add_zero, hn, eq_comm, List.getElem?_eq_none_iff] at h0
      omega
    | ok b =>
      have hb' := readInput_ok.1 hb
      cases hr : readInputs s (i + 1) n with
      | error f =>
        simp only [bind, Except.bind, reduceCtorEq, false_iff, not_and]
        intro hl h
        have : readInputs s (i + 1) n = .ok bs.tail := ih.2 ⟨by simp [hl], fun k hk => by
          have := h (k + 1) (by omega)
          rwa [show i + (k + 1) = i + 1 + k by omega, ← List.getElem?_tail] at this⟩
        simp [hr] at this
      | ok rest =>
        obtain ⟨hrl, hrk⟩ := ih.1 hr
        simp only [bind, Except.bind, Except.ok.injEq]
        constructor
        · rintro rfl
          refine ⟨by simp [hrl], fun k hk => ?_⟩
          cases k with
          | zero => simpa using hb'
          | succ k =>
            rw [show i + (k + 1) = i + 1 + k by omega, hrk k (by omega), List.getElem?_cons_succ]
        · rintro ⟨hl, h⟩
          refine List.ext_getElem? fun k => ?_
          cases k with
          | zero => simpa [hb'] using h 0 (by omega)
          | succ k =>
            rw [List.getElem?_cons_succ]
            by_cases hk : k < n
            · rw [← hrk k hk, ← h (k + 1) (by omega)]
              congr 1
              omega
            · rw [List.getElem?_eq_none (by omega), List.getElem?_eq_none (by omega)]

/-- A read of `n` cells faults exactly when one of them holds no value, and with `unwrittenInput`. -/
theorem readInputs_error {s : State} {i n : Nat} {f : Fault} :
    readInputs s i n = .error f ↔ f = .unwrittenInput ∧ ∃ k < n, s.ibuf.read (i + k) = none := by
  induction n generalizing i with
  | zero => simp
  | succ n ih =>
    rw [readInputs_succ]
    cases hb : readInput s i with
    | error g =>
      obtain ⟨rfl, hn⟩ := readInput_error.1 hb
      simp only [bind, Except.bind, Except.error.injEq]
      exact ⟨fun h => ⟨h.symm, 0, by omega, hn⟩, fun h => h.1.symm⟩
    | ok b =>
      have hb' := readInput_ok.1 hb
      have shift : (∃ k < n, s.ibuf.read (i + 1 + k) = none) ↔
          ∃ k < n + 1, s.ibuf.read (i + k) = none := by
        constructor
        · rintro ⟨k, hk, h⟩
          exact ⟨k + 1, by omega, by rwa [show i + (k + 1) = i + 1 + k by omega]⟩
        · rintro ⟨k, hk, h⟩
          cases k with
          | zero => simp [hb'] at h
          | succ k => exact ⟨k, by omega, by rwa [show i + 1 + k = i + (k + 1) by omega]⟩
      rw [← shift]
      cases hr : readInputs s (i + 1) n with
      | error g => rw [← ih, hr]; rfl
      | ok rest =>
        have h1 := (not_congr ih).1 (by simp [hr] : ¬ readInputs s (i + 1) n = .error f)
        simpa [bind, Except.bind] using h1

@[simp] theorem readValues_zero (s : State) (j : Nat) : readValues s j 0 = .ok [] := rfl

theorem readValues_succ (s : State) (j n : Nat) : readValues s j (n + 1) =
    (readInput s j >>= fun a => readInput s (j + 1) >>= fun b =>
      readValues s (j + 2) n >>= fun vs => .ok (bigEndian a b :: vs)) := rfl

/-- When the cells hold bytes, the values are read, each from its own two cells. -/
theorem readValues_of_written {s : State} {j n : Nat}
    (h : ∀ k < 2 * n, (s.ibuf.read (j + k)).isSome) :
    ∃ vs, readValues s j n = .ok vs ∧ vs.length = n ∧
      ∀ k < n, ∃ a b, s.ibuf.read (j + 2 * k) = some a ∧
        s.ibuf.read (j + (2 * k + 1)) = some b ∧ vs[k]? = some (bigEndian a b) := by
  induction n generalizing j with
  | zero => exact ⟨[], rfl, rfl, fun k hk => absurd hk (by omega)⟩
  | succ n ih =>
    obtain ⟨a, ha⟩ := Option.isSome_iff_exists.1 (h 0 (by omega))
    rw [Nat.add_zero] at ha
    obtain ⟨b, hb⟩ := Option.isSome_iff_exists.1 (h 1 (by omega))
    obtain ⟨vs, hvs, hl, hk⟩ := ih (j := j + 2) fun k hk => by
      have := h (k + 2) (by omega)
      rwa [show j + (k + 2) = j + 2 + k by omega] at this
    refine ⟨bigEndian a b :: vs, ?_, by simp [hl], fun k hk' => ?_⟩
    · rw [readValues_succ, readInput_ok.2 ha, readInput_ok.2 hb, hvs]
      rfl
    · cases k with
      | zero => exact ⟨a, b, ha, hb, rfl⟩
      | succ k =>
        obtain ⟨a', b', h1, h2, h3⟩ := hk k (by omega)
        refine ⟨a', b', ?_, ?_, by simpa using h3⟩
        · rwa [show j + 2 * (k + 1) = j + 2 + 2 * k by omega]
        · rwa [show j + (2 * (k + 1) + 1) = j + 2 + (2 * k + 1) by omega]

/-! ## Outcomes -/

/-- A command's reads end in the next state or in their own fault. -/
theorem afterReads_next {α : Type} {r : Except Fault α} {go : α → State} {t : State} :
    afterReads r go = .next t ↔ ∃ a, r = .ok a ∧ go a = t := by
  cases r <;> simp [afterReads]

theorem afterReads_fault {α : Type} {r : Except Fault α} {go : α → State} {f : Fault} :
    afterReads r go = .fault f ↔ r = .error f := by
  cases r <;> simp [afterReads]

@[simp] theorem afterReads_ne_refused {α : Type} {r : Except Fault α} {go : α → State}
    {q : Refusal} : afterReads r go ≠ .refused q := by
  cases r <;> simp [afterReads]

/-- R67: a command with a length goes on exactly when the length fits. -/
theorem whenLenFits_of_le {len : Half} {s : State} (go : Nat → Host.Outcome State Fault Refusal)
    (h : len.toNat ≤ s.cfg.bufSize) : whenLenFits len s go = go len.toNat :=
  if_neg (Nat.not_lt.2 h)

theorem whenLenFits_of_gt {len : Half} {s : State} (go : Nat → Host.Outcome State Fault Refusal)
    (h : s.cfg.bufSize < len.toNat) : whenLenFits len s go = .refused .lenExceedsBuffer :=
  if_pos h

theorem whenLenFits_next {len : Half} {s : State} {go : Nat → Host.Outcome State Fault Refusal}
    {t : State} : whenLenFits len s go = .next t ↔
      len.toNat ≤ s.cfg.bufSize ∧ go len.toNat = .next t := by
  unfold whenLenFits
  split <;> simp <;> omega

/-! ## Host accesses (R24, R28) -/

/-- A host write changes IBUF and nothing else. -/
theorem hostWriteIbuf_next {i : Nat} {b : Byte} {s t : State} :
    hostWriteIbuf i b s = .next t ↔ i < s.cfg.bufSize ∧ t = s.setIbuf (s.ibuf.write i b) := by
  unfold hostWriteIbuf
  split
  · simp only [reduceCtorEq, false_iff]
    omega
  · simp only [Host.Outcome.next.injEq]
    constructor
    · rintro rfl
      exact ⟨by omega, rfl⟩
    · rintro ⟨_, rfl⟩
      rfl

/-- A host read of IBUF returns the byte and changes nothing of the block. -/
theorem hostReadIbuf_next {i : Nat} {s t : State} :
    hostReadIbuf i s = .next t ↔
      i < s.cfg.bufSize ∧ ∃ b, s.ibuf.read i = some b ∧ t = s.reply (.byte b) := by
  unfold hostReadIbuf
  split
  · simp only [reduceCtorEq, false_iff, not_and]
    omega
  · rw [afterReads_next]
    simp only [readInput_ok]
    constructor
    · rintro ⟨b, hb, rfl⟩
      exact ⟨by omega, b, hb, rfl⟩
    · rintro ⟨_, b, hb, rfl⟩
      exact ⟨b, hb, rfl⟩

/-- A host read of a result cell returns its value and changes nothing of the block. -/
theorem hostReadResult_next {F : ResultCell} {s t : State} :
    hostReadResult F s = .next t ↔ ∃ v, s.res.read F = some v ∧ t = s.reply v := by
  unfold hostReadResult
  cases s.res.read F <;> simp [eq_comm]

theorem hostReadResult_fault {F : ResultCell} {s : State} {f : Fault} :
    hostReadResult F s = .fault f ↔ f = .unwrittenResult ∧ s.res.read F = none := by
  unfold hostReadResult
  cases s.res.read F <;> simp [eq_comm]

end Sys2Proof.Machine
end

