-- ==== Sys2Proof/Laws/Exec.lean ====
section
/-! SUPPORT. What a command and a step can do, said once. -/

namespace Sys2Proof.Machine

/-! ## Result cells (R26) -/

@[simp] theorem frameCells_getElem (f : Vector Byte 8) (k : Nat) (h : k < 8) :
    (frameCells f)[k] = some f[k] := by
  interval_cases k <;> rfl

@[simp] theorem valueCells_getElem (vs : List Half) (k : Nat) (h : k < 127) :
    (valueCells vs)[k] = vs[k]? := by
  simp [valueCells]

/-- No cell of the blank record holds a value. -/
@[simp] theorem ResultRecord.blank_read (F : ResultCell) : ResultRecord.blank.read F = none := by
  cases F <;> simp [ResultRecord.read]

/-! ## The decoder's result (R122 to R126) -/

/-- R122: below five bytes nothing is read. -/
theorem decodeResponse_short {s : State} {n : Nat} (h : n < 5) :
    decodeResponse s n = .ok (.failed .shortRead) := if_pos h

/-- R123: the declared length is too long. -/
theorem decodeResponse_malformed {s : State} {n : Nat} {cnt : Byte} (h5 : 5 ≤ n)
    (hc : s.ibuf.read 2 = some cnt) (h : n < cnt.toNat + 5) :
    decodeResponse s n = .ok (.failed .malformedFrame) := by
  have h5' : ¬ n < shortReadMin := Nat.not_lt.2 h5
  simp only [decodeResponse, if_neg h5', readInput_ok.2 hc, bind, Except.bind, if_pos h]
  rfl

/-- R124, R126: the length checks pass and every byte has been read. -/
theorem decodeResponse_checked {s : State} {n : Nat} {cnt lo hi : Byte} {region : List Byte}
    (hc : s.ibuf.read 2 = some cnt) (h : cnt.toNat + 5 ≤ n)
    (hr : readInputs s 0 (n - 2) = .ok region) (hl : s.ibuf.read (n - 2) = some lo)
    (hh : s.ibuf.read (n - 1) = some hi) :
    decodeResponse s n =
      if crc16 region ≠ lowFirst lo hi then .ok (.failed .crcMismatch)
      else (readValues s 3 (valueCount cnt)).map Decoded.values := by
  have h5 : ¬ n < shortReadMin := by
    rw [shortReadMin]
    omega
  have hm : ¬ n < cnt.toNat + 5 := Nat.not_lt.2 h
  simp only [decodeResponse, if_neg h5, readInput_ok.2 hc, readInput_ok.2 hl, readInput_ok.2 hh,
    hr, bind, Except.bind, if_neg hm]
  split
  · rfl
  · cases readValues s 3 (valueCount cnt) <;> rfl

/-! ## One command -/

/-- Whatever DEC decoded, its completion is one completion (R127, R128). -/
theorem completeDec_cases (s : State) (d : Decoded) :
    (∃ st, d = .failed st ∧ completeDec s d = s.complete st fun r => r) ∨
    (∃ vs, d = .values vs ∧ completeDec s d = s.complete .ok fun r =>
      { r with nval := some (BitVec.ofNat 8 vs.length), val := valueCells vs }) := by
  cases d with
  | failed st => exact .inl ⟨st, rfl, rfl⟩
  | values vs => exact .inr ⟨vs, rfl, rfl⟩

theorem execCrc_next {len : Half} {s t : State} : execCrc len s = .next t ↔
    len.toNat ≤ s.cfg.bufSize ∧ ∃ bs, readInputs s 0 len.toNat = .ok bs ∧
      (s.complete .ok fun r => { r with crcOut := some (crc16 bs) }) = t := by
  rw [execCrc, whenLenFits_next, afterReads_next]

theorem execDec_next {len : Half} {s t : State} : execDec len s = .next t ↔
    len.toNat ≤ s.cfg.bufSize ∧ ∃ d, decodeResponse s len.toNat = .ok d ∧ completeDec s d = t := by
  rw [execDec, whenLenFits_next, afterReads_next]

/-- Everything a command can do when it completes: it replaces the result record, by its own rule, and ends. -/
theorem exec_next_cases {i : Instr} {s t : State} (h : exec i s = .next t) :
    (∃ len bs, i = .crc len ∧ len.toNat ≤ s.cfg.bufSize ∧ readInputs s 0 len.toNat = .ok bs ∧
      t = s.complete .ok fun r => { r with crcOut := some (crc16 bs) }) ∨
    (∃ sa fc start count, i = .enc sa fc start count ∧
      t = s.complete .ok fun r =>
        { r with frame := frameCells (requestFrame sa fc start count) }) ∨
    (∃ len d, i = .dec len ∧ len.toNat ≤ s.cfg.bufSize ∧ decodeResponse s len.toNat = .ok d ∧
      t = completeDec s d) := by
  cases i with
  | crc len =>
    obtain ⟨hl, bs, hbs, ht⟩ := execCrc_next.1 h
    exact .inl ⟨len, bs, rfl, hl, hbs, ht.symm⟩
  | enc sa fc start count =>
    exact .inr (.inl ⟨sa, fc, start, count, rfl, by simpa [exec, execEnc] using h.symm⟩)
  | dec len =>
    obtain ⟨hl, d, hd, ht⟩ := execDec_next.1 h
    exact .inr (.inr ⟨len, d, rfl, hl, hd, ht.symm⟩)

/-- A command that completes is one completion of the state it ran in. -/
theorem exec_next_complete {i : Instr} {s t : State} (h : exec i s = .next t) :
    ∃ st own, t = s.complete st own := by
  rcases exec_next_cases h with ⟨_, _, _, _, _, rfl⟩ | ⟨_, _, _, _, _, rfl⟩ | ⟨_, d, _, _, _, rfl⟩
  · exact ⟨_, _, rfl⟩
  · exact ⟨_, _, rfl⟩
  · rcases completeDec_cases s d with ⟨st, _, e⟩ | ⟨vs, _, e⟩
    · exact ⟨_, _, e⟩
    · exact ⟨_, _, e⟩

theorem whenLenFits_refused {len : Half} {s : State} {go : Nat → Host.Outcome State Fault Refusal}
    {r : Refusal} (hgo : ∀ n, go n ≠ .refused r) : whenLenFits len s go = .refused r ↔
      s.cfg.bufSize < len.toNat ∧ r = .lenExceedsBuffer := by
  unfold whenLenFits
  split <;> simp [*, eq_comm]

/-- The one refusal of a command is that of its length (R67). -/
theorem exec_refused {i : Instr} {s : State} {r : Refusal} : exec i s = .refused r ↔
    i.wellFormed s.cfg = false ∧ r = .lenExceedsBuffer := by
  cases i with
  | crc len =>
    rw [exec, execCrc, whenLenFits_refused fun _ => afterReads_ne_refused]
    simp [Instr.wellFormed]
  | enc sa fc start count => simp [exec, execEnc, Instr.wellFormed]
  | dec len =>
    rw [exec, execDec, whenLenFits_refused fun _ => afterReads_ne_refused]
    simp [Instr.wellFormed]

/-! ## One step -/

theorem runCommand_next {w : CommandWord} {s t : State} :
    runCommand w s = .next t ↔ ∃ i, decode w = .ok i ∧ exec i s = .next t := by
  unfold runCommand
  cases decode w <;> simp

/-- Everything a step can do when it goes on: run the command in CMD, stand still, or make the host's next move. -/
theorem step_next_cases {s t : State} (h : step s = .next t) :
    (∃ w i, s.cmd = some w ∧ decode w = .ok i ∧ exec i s = .next t) ∨
    (s.cmd = none ∧ s.host.script = [] ∧ t = s) ∨
    (∃ a rest, s.cmd = none ∧ s.host.script = a :: rest ∧
      perform a (s.setScript rest) = .next t) := by
  unfold step at h
  cases hc : s.cmd with
  | some w =>
    simp only [hc] at h
    obtain ⟨i, hd, he⟩ := runCommand_next.1 h
    exact .inl ⟨w, i, rfl, hd, he⟩
  | none =>
    simp only [hc] at h
    cases hs : s.host.script with
    | nil =>
      simp only [hs, Host.Outcome.next.injEq] at h
      exact .inr (.inl ⟨rfl, rfl, h.symm⟩)
    | cons a rest =>
      simp only [hs] at h
      exact .inr (.inr ⟨a, rest, rfl, rfl, h⟩)

/-- Everything a move of the host can do when it goes on. -/
theorem perform_next_cases {a : HostAction} {s t : State} (h : perform a s = .next t) :
    (∃ i b, a = .writeIbuf i b ∧ i < s.cfg.bufSize ∧ t = s.setIbuf (s.ibuf.write i b)) ∨
    (∃ i b, a = .readIbuf i ∧ i < s.cfg.bufSize ∧ s.ibuf.read i = some b ∧
      t = s.reply (.byte b)) ∨
    (∃ w i, a = .issue w ∧ decode w = .ok i ∧ exec i (s.setCmd (some w)) = .next t) ∨
    (∃ F v, a = .readResult F ∧ s.res.read F = some v ∧ t = s.reply v) := by
  cases a with
  | writeIbuf i b =>
    obtain ⟨hi, ht⟩ := hostWriteIbuf_next.1 h
    exact .inl ⟨i, b, rfl, hi, ht⟩
  | readIbuf i =>
    obtain ⟨hi, b, hb, ht⟩ := hostReadIbuf_next.1 h
    exact .inr (.inl ⟨i, b, rfl, hi, hb, ht⟩)
  | issue w =>
    obtain ⟨i, hd, he⟩ := runCommand_next.1 h
    exact .inr (.inr (.inl ⟨w, i, rfl, hd, he⟩))
  | readResult F =>
    obtain ⟨v, hv, ht⟩ := hostReadResult_next.1 h
    exact .inr (.inr (.inr ⟨F, v, rfl, hv, ht⟩))

end Sys2Proof.Machine
end

