-- ==== Sys2Proof/Laws/PerInstr.lean ====
section
/-! SUPPORT. Facts about every command as syntax, one lemma per constructor (LAWS.json). -/

namespace Sys2Proof.Laws

/-- R64: the word of a command matches the row of its own mnemonic. -/
def EncodingMatchesRow.Statement (i : Instr) : Prop :=
  ∃ r ∈ opcodeTable, r.mnemonic = i.mnemonic ∧ r.hits (encode i) = true

theorem EncodingMatchesRow.crc (len : Half) : EncodingMatchesRow.Statement (.crc len) := by
  refine ⟨_, List.mem_cons_self, rfl, ?_⟩
  simp only [OpcodeRow.hits, encode, beq_iff_eq]
  ext k hk
  interval_cases k <;> simp

theorem EncodingMatchesRow.enc (sa fc : Byte) (start count : Half) :
    EncodingMatchesRow.Statement (.enc sa fc start count) := by
  refine ⟨_, List.mem_cons_of_mem _ List.mem_cons_self, rfl, ?_⟩
  simp only [OpcodeRow.hits, encode, beq_iff_eq]
  ext k hk
  interval_cases k <;> simp

theorem EncodingMatchesRow.dec (len : Half) : EncodingMatchesRow.Statement (.dec len) := by
  refine ⟨_, List.mem_cons_of_mem _ (List.mem_cons_of_mem _ List.mem_cons_self), rfl, ?_⟩
  simp only [OpcodeRow.hits, encode, beq_iff_eq]
  ext k hk
  interval_cases k <;> simp

end Sys2Proof.Laws
end

