-- ==== Sys2Proof/Tests/Slice0.lean ====
section
/-! SUPPORT. Tests of the model against the spec's own worked values (95_test_vectors.md; each test names its row), and, for every
statement of Certificates/Slice0/Obligations.lean that has hypotheses, a state and operands that meet them (`witness_<statement>`). -/

namespace Sys2Proof.Tests

open Sys2Proof Sys2Proof.Machine

/-! ## Helpers -/

/-- A block of 300 cells whose first cells hold the given bytes, as after `WRS 0, ...`. -/
def loaded (bs : List Byte) : State :=
  { State.reset with ibuf := (List.range bs.length).zip bs }

/-- The same with a command word in CMD. -/
def loadedWith (w : CommandWord) (bs : List Byte) : State := (loaded bs).setCmd (some w)

/-- The same with host moves to make. -/
def scripted (acts : List HostAction) (bs : List Byte) : State := (loaded bs).setScript acts

/-- The outcome is a next state that passes the test. -/
def goesOn (o : Host.Outcome State Fault Refusal) (p : State → Bool) : Bool :=
  match o with
  | .next t => p t
  | .fault _ => false
  | .refused _ => false

/-- The outcome is this fault. -/
def faultsWith (o : Host.Outcome State Fault Refusal) (f : Fault) : Bool :=
  match o with
  | .next _ => false
  | .fault g => f == g
  | .refused _ => false

/-- The outcome is this refusal. -/
def refusedWith (o : Host.Outcome State Fault Refusal) (r : Refusal) : Bool :=
  match o with
  | .next _ => false
  | .fault _ => false
  | .refused q => r == q

theorem goes_on {o : Host.Outcome State Fault Refusal} (h : goesOn o (fun _ => true) = true) :
    ∃ t, o = .next t := by
  cases o with
  | next t => exact ⟨t, rfl⟩
  | fault f => cases h
  | refused r => cases h

theorem goes_on_to {o : Host.Outcome State Fault Refusal} {P : State → Prop} [DecidablePred P]
    (h : goesOn o (fun t => decide (P t)) = true) : ∃ t, o = .next t ∧ P t := by
  cases o with
  | next t => exact ⟨t, rfl, of_decide_eq_true h⟩
  | fault f => cases h
  | refused r => cases h

theorem faults {o : Host.Outcome State Fault Refusal} {f : Fault} (h : faultsWith o f = true) :
    o = .fault f := by
  cases o with
  | next t => cases h
  | fault g => rw [show f = g by simpa [faultsWith] using h]
  | refused r => cases h

theorem is_refused {o : Host.Outcome State Fault Refusal} {r : Refusal}
    (h : refusedWith o r = true) : o = .refused r := by
  cases o with
  | next t => cases h
  | fault f => cases h
  | refused q => rw [show r = q by simpa [refusedWith] using h]

/-- The source's one-register response (S3). -/
def response : List Byte := [0x01, 0x03, 0x02, 0x00, 0x7B, 0xF8, 0x67]

/-! ## Well-formedness (R67): `BUF_SIZE` is 300 here -/

theorem test_wellFormed_crc_full_buffer : Instr.wellFormed .atReset (.crc 300) = true := by decide
theorem test_illFormed_crc_past_buffer : Instr.wellFormed .atReset (.crc 301) = false := by decide
theorem test_wellFormed_dec_full_buffer : Instr.wellFormed .atReset (.dec 300) = true := by decide
theorem test_illFormed_dec_past_buffer : Instr.wellFormed .atReset (.dec 301) = false := by decide
theorem test_wellFormed_enc_always :
    Instr.wellFormed .atReset (.enc 0xFF 0xFF 0xFFFF 0xFFFF) = true := by decide
theorem test_bufSize_range : (Config.mk 0).bufSize = 5 ∧ (Config.mk 65530).bufSize = 65535 := by decide

/-! ## Decoding: words written out from the fields of R61 and R62, most significant field first -/

-- RSV = 0 (40 bits), LEN = 6 (16 bits), OP = 0x01.
theorem test_decode_crc : decode
    0b0000000000000000000000000000000000000000_0000000000000110_00000001#64 = .ok (.crc 6) := by rfl
-- RSV = 0, COUNT = 0x0003, START = 0x006B, FC = 0x03, SA = 0x11, OP = 0x02.
theorem test_decode_enc : decode
    0b00000000_0000000000000011_0000000001101011_00000011_00010001_00000010#64 =
      .ok (.enc 0x11 0x03 0x006B 0x0003) := by rfl
-- RSV = 0 (40 bits), LEN = 0x0104, OP = 0x03 (T6).
theorem test_decode_dec : decode
    0b0000000000000000000000000000000000000000_0000000100000100_00000011#64 = .ok (.dec 260) := by rfl
-- T6.
theorem test_decode_enc_all_ones : decode 0x00FFFFFFFFFFFF02#64 = .ok (.enc 0xFF 0xFF 0xFFFF 0xFFFF) := by
  rfl
theorem test_decode_reserved_op :
    decode 0x0000000000000000#64 = .error .reservedOpcode ∧
    decode 0x0000000000000004#64 = .error .reservedOpcode ∧
    decode 0x00000000000000FF#64 = .error .reservedOpcode ∧
    decode 0x00000000FFFF0004#64 = .error .reservedOpcode := ⟨rfl, rfl, rfl, rfl⟩
theorem test_decode_reserved_bits :
    decode 0x0000000001000001#64 = .error .reservedBitsSet ∧
    decode 0x0100000000000002#64 = .error .reservedBitsSet := ⟨rfl, rfl⟩
theorem test_decodeTableWord : decodeTableWord 64 0x0000000000000703 = some (.dec 7) := by decide
-- T6: DEC 301 with BUF_SIZE = 300.
theorem test_len_exceeds_buffer :
    refusedWith (step (State.reset.withFetchWord 64 0x0000000000012D03)) .lenExceedsBuffer = true := by
  decide +kernel

/-! ## CRC -/

-- T2: the catalogue input "123456789"; S1 with the value of 90_conflicts.md C1; the last bit steps of T1.
theorem test_crc16_values :
    crc16 [0x31, 0x32, 0x33, 0x34, 0x35, 0x36, 0x37, 0x38, 0x39] = 0x4B37 ∧
    crc16 [0x01, 0x03, 0x00, 0x01, 0x00, 0x01] = 0xCAD5 ∧
    crcBit 0x40FF = 0x807E ∧ crcBit 0x8500 = 0x4280 := by decide +kernel
-- T2: `CRC 1` on an unwritten IBUF; the CRC command vector is 40_crc.md R85's example.
theorem test_crc_command :
    goesOn (step (loadedWith 0x601 [0x01, 0x03, 0x00, 0x01, 0x00, 0x01]))
      (fun t => t.res.status == some 0x00 && t.res.crcOut == some 0xCAD5 && t.res.nval == none) = true ∧
    faultsWith (step (loadedWith 0x101 [])) .unwrittenInput = true := by decide +kernel

/-! ## ENC -/

-- T4, third row.
theorem test_enc_command : goesOn (step (loadedWith 0x000003006B031102 []))
    (fun t => t.res.status == some 0x00 && t.res.frame ==
      #v[some 0x11, some 0x03, some 0x00, some 0x6B, some 0x00, some 0x03, some 0x76, some 0x87]) = true := by
  decide +kernel
-- T4, tenth row: START and COUNT not swapped, COUNT big-endian.
theorem test_enc_count_split : goesOn (step (loadedWith 0x0001000001030102 []))
    (fun t => t.res.frame ==
      #v[some 0x01, some 0x03, some 0x00, some 0x01, some 0x01, some 0x00, some 0x15, some 0x9A]) = true := by
  decide +kernel

/-! ## DEC -/

-- T5, rows 17 and 13.
theorem test_dec_values :
    goesOn (step (loadedWith 0x903 [0x01, 0x03, 0x04, 0x12, 0x34, 0xAB, 0xCD, 0x00, 0x20]))
      (fun t => t.res.status == some 0x00 && t.res.nval == some 2 && t.res.val[0] == some 0x1234 &&
        t.res.val[1] == some 0xABCD && t.res.val[2] == none) = true ∧
    goesOn (step (loadedWith 0x803 [0x01, 0x03, 0x03, 0x12, 0x34, 0x56, 0x73, 0x75]))
      (fun t => t.res.nval == some 1 && t.res.val[0] == some 0x1234 && t.res.val[1] == none) = true := by
  decide +kernel
-- T5, rows 7, 11, 3 and 24.
theorem test_dec_errors :
    goesOn (step (loadedWith 0x403 [0x01, 0x03, 0x00, 0x20])) (fun t => t.res.status == some 0x01) = true ∧
    goesOn (step (loadedWith 0x503 [0x01, 0x03, 0xFF, 0x00, 0x00]))
      (fun t => t.res.status == some 0x02) = true ∧
    goesOn (step (loadedWith 0x703 [0x01, 0x03, 0x02, 0x00, 0x7B, 0xF8, 0xE7]))
      (fun t => t.res.status == some 0x03 && t.res.nval == none) = true ∧
    faultsWith (step (loadedWith 0x503 [0x01, 0x03, 0x00])) .unwrittenInput = true := by decide +kernel

/-! ## Host accesses, marks and the notation -/

-- T7, first three rows.
theorem test_host_accesses :
    refusedWith (step (scripted [.writeIbuf 300 0] [])) .ibufIndexOutOfRange = true ∧
    faultsWith (step (scripted [.readIbuf 0] [])) .unwrittenInput = true ∧
    faultsWith (step (scripted [.readResult .status] [])) .unwrittenResult = true := by decide +kernel
-- P5: after `DEC 4` the record holds STATUS = 0x01, `DEC 5` faults and the state is not final.
theorem test_faulted_state :
    let m := (Marked.fresh (scripted [.issue 0x403, .issue 0x503] [])).advances 2
    m.fault = some .unwrittenInput ∧ m.state.res.status = some 0x01 ∧ m.final = false := by decide +kernel
-- R69, R70.
theorem test_program_text : assembleText
    ("WRS 4, 0x7B 0xF8 0x67 ; second read\n\nDEC 7\nRD VAL[0]\nENC 0x01, 0x03, 0x0001, 0x0001").toList =
    some [.writeIbuf 4 0x7B, .writeIbuf 5 0xF8, .writeIbuf 6 0x67, .issue 0x0000000000000703,
      .readResult (.val 0), .issue 0x0000010001030102] := by decide +kernel
theorem test_assembly_errors : assembleText "CRC 0x10000".toList = none ∧
    assembleText "ENC 256, 3, 1, 1".toList = none ∧ assembleText "NOP".toList = none := by decide +kernel

/-! ## Witnesses -/

theorem witness_EncodeOfDecodeIsTheWord : decode 0x0000000000000601#64 = .ok (.crc 6) := rfl

theorem witness_WordIsCommandExactlyWhenARowMatches :
    decode 0x00FFFFFFFFFFFF02#64 = .ok (.enc 0xFF 0xFF 0xFFFF 0xFFFF) ∧
    ∃ r ∈ opcodeTable, 0x00FFFFFFFFFFFF02#64 &&& r.mask = r.matchWord := ⟨rfl, by decide⟩

theorem witness_OperandsAreTheFieldsOfTheWord :
    decode 0x0000000000FFFF01#64 = .ok (.crc 0xFFFF) ∧
    decode 0x00FFFFFFFFFFFF02#64 = .ok (.enc 0xFF 0xFF 0xFFFF 0xFFFF) ∧
    decode 0x0000000000FFFF03#64 = .ok (.dec 0xFFFF) := ⟨rfl, rfl, rfl⟩

/-- The largest operands in range and the least out of range. -/
theorem witness_StatementsStandForHostMoves :
    (0xFFFF ≤ 0xFFFF ∧ 0xFF ≤ 0xFF) ∧ 0xFFFF < 0x10000 ∧ (0xFF < 0x100 ∨ 0xFF < 0 ∨ 0xFFFF < 0 ∨ 0xFFFF < 0) ∧
    (∀ b ∈ [0x01, 0xFF], b ≤ 0xFF) ∧ [0x01, 0xFF][1]? = some 0xFF ∧
    (Stmt.crc 0xFFFF).assemble ≠ none ∧ (Stmt.enc 0xFF 0xFF 0xFFFF 0xFFFF).assemble ≠ none ∧
    (Stmt.enc 0x100 0 0 0).assemble = none ∧ (Stmt.rd (.val 126)).assemble ≠ none := by decide

theorem witness_StepRunsTheDecodedCommand :
    ((loadedWith 0x601 []).cmd = some 0x601 ∧ decode 0x601#64 = .ok (.crc 6)) ∧
    (scripted [.issue 0x601] []).cmd = none ∧
    (scripted [.issue 0x601] []).host.script = [.issue 0x601] := ⟨⟨rfl, rfl⟩, rfl, rfl⟩

theorem witness_StepMakesTheHostsNextMove :
    ((scripted [.writeIbuf 0 1] []).cmd = none ∧
      (scripted [.writeIbuf 0 1] []).host.script = [.writeIbuf 0 1]) ∧
    State.reset.cmd = none ∧ State.reset.host.script = [] := ⟨⟨rfl, rfl⟩, rfl, rfl⟩

/-- A word for each clause, at the least value that the clause takes in: OP 0x00 and 0x04, RSV 1, LEN `BUF_SIZE + 1`, and
LEN `BUF_SIZE` and an ENC word, which pass. -/
theorem witness_CommandWordsAreCheckedInOrder :
    ((loadedWith 0x00 []).cmd = some 0x00#64 ∧ (0x00#64).toNat % 2 ^ 8 = 0x00) ∧
    ((loadedWith 0x04 []).cmd = some 0x04#64 ∧ (0x04#64).toNat % 2 ^ 8 = 0x04) ∧
    ((0x1000001#64).toNat % 2 ^ 8 = 0x01 ∧ (0x1000001#64).toNat / 2 ^ 24 ≠ 0) ∧
    ((0x100000000000002#64).toNat % 2 ^ 8 = 0x02 ∧ (0x100000000000002#64).toNat / 2 ^ 56 ≠ 0) ∧
    ((0x12D03#64).toNat % 2 ^ 8 = 0x03 ∧ (0x12D03#64).toNat / 2 ^ 24 = 0 ∧
      (loadedWith 0x12D03 []).cfg.bufSize < (0x12D03#64).toNat / 2 ^ 8 % 2 ^ 16) ∧
    ((0x12C03#64).toNat % 2 ^ 8 = 0x03 ∧ (0x12C03#64).toNat / 2 ^ 24 = 0 ∧
      (0x12C03#64).toNat / 2 ^ 8 % 2 ^ 16 ≤ (loadedWith 0x12C03 []).cfg.bufSize) ∧
    ((0xFFFFFFFFFFFF02#64).toNat % 2 ^ 8 = 0x02 ∧ (0xFFFFFFFFFFFF02#64).toNat / 2 ^ 56 = 0) ∧
    goesOn (step (loadedWith 0xFFFFFFFFFFFF02 [])) (fun _ => true) = true := by decide +kernel

/-- A refused step for each reason, and a mark already set. -/
theorem witness_RefusedStepSetsTheMarkOnly :
    step (loadedWith 0x00 []) = .refused .reservedOpcode ∧
    step (loadedWith 0x1000001 []) = .refused .reservedBitsSet ∧
    step (loadedWith 0x12D01 []) = .refused .lenExceedsBuffer ∧
    step (scripted [.readIbuf 300] []) = .refused .ibufIndexOutOfRange ∧
    (Marked.fresh (loadedWith 0x00 [])).advance.refusal = some .reservedOpcode :=
  ⟨is_refused (by decide +kernel), is_refused (by decide +kernel),
    is_refused (by decide +kernel), is_refused (by decide +kernel),
    by decide +kernel⟩

/-- A faulting step for each reason, and a mark already set. -/
theorem witness_FaultingStepSetsTheMarkOnly :
    step (scripted [.readResult (.frame 0)] []) = .fault .unwrittenResult ∧
    step (scripted [.readIbuf 299] []) = .fault .unwrittenInput ∧
    step (loadedWith 0x101 []) = .fault .unwrittenInput ∧
    (Marked.fresh (loadedWith 0x101 [])).advance.fault = some .unwrittenInput :=
  ⟨faults (by decide +kernel), faults (by decide +kernel),
    faults (by decide +kernel), by decide +kernel⟩

theorem witness_NoCommandIsInFlightAfterAStep : ∃ t, step (loadedWith 0x703 response) = .next t :=
  goes_on (by decide +kernel)

/-- The invariant holds of a state with bytes in IBUF, and a step from it goes on. -/
theorem witness_EveryStepKeepsTheInvariant :
    (loadedWith 0x703 response).Inv ∧ ∃ t, step (loadedWith 0x703 response) = .next t :=
  ⟨⟨by decide +kernel, by decide +kernel,
    ⟨by simp [loadedWith, loaded, State.setCmd, State.reset, State.resetFor, ResultRecord.blank],
      by simp [loadedWith, loaded, State.setCmd, State.reset, State.resetFor, ResultRecord.blank],
      by simp [loadedWith, loaded, State.setCmd, State.reset, State.resetFor, ResultRecord.blank],
      by simp [loadedWith, loaded, State.setCmd, State.reset, State.resetFor, ResultRecord.blank],
      by simp [loadedWith, loaded, State.setCmd, State.reset, State.resetFor, ResultRecord.blank]⟩⟩,
    witness_NoCommandIsInFlightAfterAStep⟩

/-- Index `BUF_SIZE`, index `BUF_SIZE - 1`, a cell without and with a value, and a step that writes another cell. -/
theorem witness_HostAccessToIbuf :
    (loaded response).cfg.bufSize ≤ 300 ∧ 299 < (loaded response).cfg.bufSize ∧
    (loaded response).ibuf.read 299 = none ∧ (loaded response).ibuf.read 6 = some 0x67 ∧
    (∃ t, step (scripted [.writeIbuf 1 0xFF] response) = .next t) ∧
    (scripted [.writeIbuf 1 0xFF] response).nextAccess = some (.writeIbuf 1 0xFF) :=
  ⟨by decide, by decide, by decide +kernel, by decide +kernel,
    goes_on (by decide +kernel), rfl⟩

/-- A result cell with a value, one without, a DEC that ends in CRC_MISMATCH, and a CRC that completes. -/
theorem witness_HostReadsOfResultCells :
    (∃ t, exec (.crc 0) State.reset = .next t ∧ (t.res.read .crcOut = some (.half 0xFFFF)) ∧
      t.res.read (.frame 7) = none) ∧
    ∃ t, exec (.dec 5) (loaded [0x01, 0x03, 0x00, 0x20, 0xF1]) = .next t ∧ t.res.status = some 0x03 :=
  ⟨goes_on_to (by decide +kernel), goes_on_to (by decide +kernel)⟩

theorem witness_HostAccessesHaveNoSideEffects :
    (∃ t, perform (.readIbuf 0) (loaded response) = .next t) ∧
    (∃ t, exec (.crc 0) State.reset = .next t ∧ ∃ u, perform (.readResult .status) t = .next u) ∧
    ∃ t, perform (.writeIbuf 299 0) (loaded response) = .next t :=
  ⟨goes_on (by decide +kernel),
    (goes_on_to (P := fun t => goesOn (perform (.readResult .status) t) (fun _ => true) = true)
      (by decide +kernel)).imp fun _ h => ⟨h.1, goes_on h.2⟩,
    goes_on (by decide +kernel)⟩

/-- Two writes of one cell and no command among three moves. -/
theorem witness_CellsHoldTheLatestWrite :
    let s := scripted [.writeIbuf 0 0x11, .readIbuf 0, .writeIbuf 0 0x22] []
    s.cmd = none ∧ (∀ w, HostAction.issue w ∉ s.host.script.take 3) ∧
    ∃ t, Sys2Proof.core.run 3 s = .next t ∧ t.ibuf.read 0 = some 0x22 :=
  ⟨rfl, by simp [scripted, State.setScript],
    goes_on_to (P := fun t => t.ibuf.read 0 = some 0x22) (by decide +kernel)⟩

/-- Each command completes somewhere. -/
theorem witness_CommandsChangeOnlyTheResultRecord :
    (∃ t, exec (.crc 7) (loaded response) = .next t) ∧
    (∃ t, exec (.enc 1 3 1 1) (loaded response) = .next t) ∧
    ∃ t, exec (.dec 7) (loaded response) = .next t :=
  ⟨goes_on (by decide +kernel),
    goes_on (by decide +kernel),
    goes_on (by decide +kernel)⟩

/-- A DEC with OK: `VAL[0]` is a cell it writes and `VAL[1]` one it does not. -/
theorem witness_CompletionReplacesTheRecord :
    ∃ t, exec (.dec 7) (loaded response) = .next t ∧
      writesCell (.dec 7) t.res.status t.res.nval (.val 0) = true ∧
      writesCell (.dec 7) t.res.status t.res.nval (.val 1) = false :=
  goes_on_to (by decide +kernel)

/-- Two states that differ at and past the command's length, and in the result record. -/
theorem witness_ResultDependsOnlyOnTheInput :
    let s := loaded response
    let u := { loaded (response ++ [0xEE]) with res := { ResultRecord.blank with crcOut := some 7 } }
    s ≠ u ∧ s.cfg = u.cfg ∧ ∀ k < inputLength (.dec 7), s.ibuf.read k = u.ibuf.read k := by
  decide +kernel

/-- Input written, and input not written, for a CRC and for each DEC path that reads. -/
theorem witness_CommandCompletesExactlyWhenItsInputIsWritten :
    ((Instr.crc 7).wellFormed (loaded response).cfg = true ∧ InputReady (.crc 7) (loaded response)) ∧
    ((Instr.crc 8).wellFormed (loaded response).cfg = true ∧ ¬ InputReady (.crc 8) (loaded response)) ∧
    InputReady (.dec 4) State.reset ∧ ¬ InputReady (.dec 5) State.reset ∧
    InputReady (.dec 6) (loaded [0, 0, 2]) ∧ ¬ InputReady (.dec 7) (loaded [0, 0, 2]) ∧
    InputReady (.dec 7) (loaded response) := by decide +kernel

/-- A CRC and an ENC that complete, and a DEC for each STATUS code. -/
theorem witness_ErrorCodesHaveTheirCauses :
    (∃ t, exec (.crc 7) (loaded response) = .next t) ∧
    (∃ t, exec (.enc 0 0 0 0) State.reset = .next t) ∧
    (∃ t, exec (.dec 4) State.reset = .next t ∧ t.res.status = some 0x01) ∧
    (∃ t, exec (.dec 6) (loaded response) = .next t ∧ t.res.status = some 0x02) ∧
    (∃ t, exec (.dec 5) (loaded [0x01, 0x03, 0x00, 0x20, 0xF1]) = .next t ∧ t.res.status = some 0x03) ∧
    ∃ t, exec (.dec 7) (loaded response) = .next t ∧ t.res.status = some 0x00 :=
  ⟨goes_on (by decide +kernel), goes_on (by decide +kernel), goes_on_to (by decide +kernel),
    goes_on_to (by decide +kernel), goes_on_to (by decide +kernel), goes_on_to (by decide +kernel)⟩

/-- The smallest block, of five cells: a full buffer, an unwritten last cell, a length past the buffer; and the spec's example. -/
theorem witness_CrcCommandFollowsItsRule :
    let small (bs : List Byte) : State := { loaded bs with cfg := ⟨0⟩ }
    ((5#16).toNat ≤ (small [1, 2, 3, 4, 5]).cfg.bufSize ∧ (small [1, 2, 3, 4, 5]).HoldsInput [1, 2, 3, 4, 5]) ∧
    (4 < (5#16).toNat ∧ (small [1, 2, 3, 4]).ibuf.read 4 = none) ∧
    (small []).cfg.bufSize < (6#16).toNat ∧
    6 ≤ (loaded [0x01, 0x03, 0x00, 0x01, 0x00, 0x01]).cfg.bufSize ∧
    (loaded [0x01, 0x03, 0x00, 0x01, 0x00, 0x01]).HoldsInput [0x01, 0x03, 0x00, 0x01, 0x00, 0x01] := by
  decide +kernel

theorem witness_EncCommandFollowsItsRule :
    decode 0x02#64 = .ok (.enc 0 0 0 0) ∧ 0x02#64 &&& 0xFF000000000000FF#64 = 0x02#64 := ⟨rfl, rfl⟩

/-- The same operands in two states. -/
theorem witness_DistinctOperandsGiveDistinctFrames :
    ∃ t v, exec (.enc 1 3 1 1) State.reset = .next t ∧ exec (.enc 1 3 1 1) (loaded response) = .next v ∧
      t.res.frame = v.res.frame := ⟨_, _, rfl, rfl, rfl⟩

/-- Frames whose third byte is 0x01, 0x02, 0x03 and 0x04, each as ENC produces it and as the host copies it into IBUF. -/
theorem witness_RequestFrameDecodesAsAResponse :
    (∃ v, exec (.enc 0x01 0x03 0x01FF 0x0034) State.reset = .next v ∧ ∀ k : Fin 8,
      (loaded [0x01, 0x03, 0x01, 0xFF, 0x00, 0x34, 0x75, 0xD1]).ibuf.read k = v.res.frame[k]) ∧
    (∃ v, exec (.enc 0x01 0x03 0x0200 0x0034) State.reset = .next v ∧ ∀ k : Fin 8,
      (loaded [0x01, 0x03, 0x02, 0x00, 0x00, 0x34, 0x45, 0xA5]).ibuf.read k = v.res.frame[k]) ∧
    (∃ v, exec (.enc 0x01 0x03 0x03FF 0x0034) State.reset = .next v ∧ ∀ k : Fin 8,
      (loaded [0x01, 0x03, 0x03, 0xFF, 0x00, 0x34, 0x74, 0x69]).ibuf.read k = v.res.frame[k]) ∧
    (∃ v, exec (.enc 0x01 0x03 0x0400 0x0034) State.reset = .next v ∧ ∀ k : Fin 8,
      (loaded [0x01, 0x03, 0x04, 0x00, 0x00, 0x34, 0x45, 0x2D]).ibuf.read k = v.res.frame[k]) ∧
    8 ≤ (loaded []).cfg.bufSize ∧ (0x01FF#16).toNat / 256 < 2 ∧
    (2 ≤ (0x0200#16).toNat / 256 ∧ (0x03FF#16).toNat / 256 < 4) ∧ 4 ≤ (0x0400#16).toNat / 256 :=
  ⟨goes_on_to (by decide +kernel), goes_on_to (by decide +kernel),
    goes_on_to (by decide +kernel), goes_on_to (by decide +kernel), by decide +kernel⟩

theorem witness_ShortResponseIsAShortRead : (0#16).toNat < 5 ∧ (4#16).toNat < 5 := by decide

/-- `len = 5` with `cnt = 1`, and `len = 259` with `cnt = 255`. -/
theorem witness_TruncatedResponseIsMalformed :
    (5 ≤ (5#16).toNat ∧ (5#16).toNat ≤ (loaded [0, 0, 1]).cfg.bufSize ∧
      (loaded [0, 0, 1]).ibuf.read 2 = some 1 ∧ (5#16).toNat < (1#8).toNat + 5) ∧
    (259#16).toNat ≤ (loaded [0, 0, 0xFF]).cfg.bufSize ∧
    (loaded [0, 0, 0xFF]).ibuf.read 2 = some 0xFF ∧ (259#16).toNat < (0xFF#8).toNat + 5 := by
  decide +kernel

/-- T5, row 2. -/
theorem witness_WrongCrcIsACrcMismatch :
    let region : List Byte := [0x01, 0x03, 0x02, 0x00, 0x7B]
    (7#16).toNat = region.length + 2 ∧ (7#16).toNat ≤ (loaded (region ++ [0xF9, 0x67])).cfg.bufSize ∧
    (loaded (region ++ [0xF9, 0x67])).HoldsInput (region ++ [0xF9, 0x67]) ∧
    region[2]? = some 0x02 ∧ (0x02#8).toNat + 5 ≤ (7#16).toNat ∧
    crc16 region ≠ (0xF9#8).setWidth 16 ||| (0x67#8).setWidth 16 <<< 8 := by decide +kernel

/-- A DEC with an error code; T5, rows 1 and 14: one value, and none. -/
theorem witness_ValidResponseYieldsItsValues :
    (∃ t, exec (.dec 4) State.reset = .next t ∧ t.res.status ≠ some 0x00) ∧
    (let region : List Byte := [0x01, 0x03, 0x02, 0x00, 0x7B]
     (7#16).toNat = region.length + 2 ∧ (7#16).toNat ≤ (loaded response).cfg.bufSize ∧
     (loaded response).HoldsInput (region ++ [0xF8, 0x67]) ∧ region[2]? = some 0x02 ∧
     (0x02#8).toNat + 5 ≤ (7#16).toNat ∧
     crc16 region = (0xF8#8).setWidth 16 ||| (0x67#8).setWidth 16 <<< 8) ∧
    (let region : List Byte := [0x01, 0x03, 0x00]
     (5#16).toNat = region.length + 2 ∧
     (loaded [0x01, 0x03, 0x00, 0x20, 0xF0]).HoldsInput (region ++ [0x20, 0xF0]) ∧
     region[2]? = some 0x00 ∧ (0x00#8).toNat + 5 ≤ (5#16).toNat ∧
     crc16 region = (0x20#8).setWidth 16 ||| (0xF0#8).setWidth 16 <<< 8) :=
  ⟨goes_on_to (by decide +kernel), by decide +kernel, by decide +kernel⟩

theorem witness_TruncatedResponseNeverSucceeds :
    ((4#16).toNat ≤ State.reset.cfg.bufSize ∧ (4#16).toNat < 5) ∧
    (loaded response).ibuf.read 2 = some 0x02 ∧ (6#16).toNat < (0x02#8).toNat + 5 := by decide +kernel

/-- The low bit of the low CRC byte, and the high bit of the high one. -/
theorem witness_FlippedCrcBitIsAMismatch :
    (∃ t, exec (.dec 7) (loaded response) = .next t ∧ t.res.status = some 0x00) ∧
    (5 = (7#16).toNat - 2 ∧ (loaded response).ibuf.read 5 = some 0xF8 ∧ 0 < 8) ∧
    6 = (7#16).toNat - 1 ∧ (loaded response).ibuf.read 6 = some 0x67 ∧ 7 < 8 :=
  ⟨goes_on_to (by decide +kernel), by decide +kernel, by decide +kernel⟩

/-- T5, row 20. -/
theorem witness_TrailingZeroKeepsAResponseValid :
    (∃ t, exec (.dec 7) (loaded (response ++ [0x00])) = .next t ∧ t.res.status = some 0x00) ∧
    (7#16).toNat + 1 ≤ (loaded (response ++ [0x00])).cfg.bufSize ∧
    (loaded (response ++ [0x00])).ibuf.read (7#16).toNat = some 0x00 :=
  ⟨goes_on_to (by decide +kernel), by decide, by decide +kernel⟩

/-- The smallest block, of five cells: a length past the buffer, an unwritten `IBUF[2]`, an unwritten last cell, a full buffer with a
valid response; and the spec's example. -/
theorem witness_DecCommandFollowsItsRule :
    let small (bs : List Byte) : State := { loaded bs with cfg := ⟨0⟩ }
    (small []).cfg.bufSize < (6#16).toNat ∧
    (5 ≤ (5#16).toNat ∧ (5#16).toNat ≤ (small []).cfg.bufSize ∧ (small [1, 3]).ibuf.read 2 = none) ∧
    ((small [1, 3, 0, 0x20]).ibuf.read 2 = some 0 ∧ (0#8).toNat + 5 ≤ (5#16).toNat ∧
      4 < (5#16).toNat ∧ (small [1, 3, 0, 0x20]).ibuf.read 4 = none) ∧
    (small [1, 3, 0, 0x20, 0xF0]).HoldsInput [1, 3, 0, 0x20, 0xF0] ∧
    7 ≤ (loaded response).cfg.bufSize ∧
    (loaded response).HoldsInput [0x01, 0x03, 0x02, 0x00, 0x7B, 0xF8, 0x67] := by decide +kernel

theorem witness_ExceptionResponseIsMalformed :
    (loaded [0x01, 0x83, 0x02, 0xC0, 0xF1]).HoldsInput [0x01, 0x83, 0x02, 0xC0, 0xF1] := by
  decide +kernel

end Sys2Proof.Tests
end

section
/-! PROOFS. The state (10_state.md): host accesses to IBUF and to the result cells, and the record that a completed command
leaves (O16, O17, O21). -/

namespace Sys2Proof.Machine

/-! ## What DEC can yield (R122 to R126) -/

/-- A computation of two parts succeeds exactly when both do. -/
theorem except_bind_eq_ok {ε α β : Type} {x : Except ε α} {f : α → Except ε β} {b : β} :
    (x >>= f) = .ok b ↔ ∃ a, x = .ok a ∧ f a = .ok b := by
  cases x <;> simp [bind, Except.bind]

/-- R125: extraction yields exactly as many values as it was asked for. -/
theorem readValues_length {s : State} {j n : Nat} {vs : List Half}
    (h : readValues s j n = .ok vs) : vs.length = n := by
  induction n generalizing j vs with
  | zero =>
    cases h
    rfl
  | succ n ih =>
    simp only [readValues_succ, except_bind_eq_ok] at h
    obtain ⟨a, _, b, _, rest, hrest, h⟩ := h
    cases h
    rw [List.length_cons, ih hrest]

/-- R122 to R126: everything that decoding a response can yield, each result with the checks that led to it. -/
theorem decodeResponse_ok_cases {s : State} {n : Nat} {d : Decoded}
    (h : decodeResponse s n = .ok d) :
    (n < 5 ∧ d = .failed .shortRead) ∨
    (∃ cnt, 5 ≤ n ∧ s.ibuf.read 2 = some cnt ∧ n < cnt.toNat + 5 ∧ d = .failed .malformedFrame) ∨
    (∃ cnt region lo hi, s.ibuf.read 2 = some cnt ∧ cnt.toNat + 5 ≤ n ∧
      readInputs s 0 (n - 2) = .ok region ∧ s.ibuf.read (n - 2) = some lo ∧
      s.ibuf.read (n - 1) = some hi ∧
      ((crc16 region ≠ lowFirst lo hi ∧ d = .failed .crcMismatch) ∨
       (crc16 region = lowFirst lo hi ∧
        ∃ vs, readValues s 3 (valueCount cnt) = .ok vs ∧ d = .values vs))) := by
  unfold decodeResponse at h
  split at h
  case isTrue h5 =>
    cases h
    exact .inl ⟨h5, rfl⟩
  case isFalse h5 =>
    obtain ⟨cnt, hcnt, h⟩ := except_bind_eq_ok.1 h
    split at h
    case isTrue hm =>
      cases h
      exact .inr (.inl ⟨cnt, Nat.not_lt.1 h5, readInput_ok.1 hcnt, hm, rfl⟩)
    case isFalse hm =>
      obtain ⟨region, hr, h⟩ := except_bind_eq_ok.1 h
      obtain ⟨lo, hlo, h⟩ := except_bind_eq_ok.1 h
      obtain ⟨hi, hhi, h⟩ := except_bind_eq_ok.1 h
      refine .inr (.inr ⟨cnt, region, lo, hi, readInput_ok.1 hcnt, Nat.not_lt.1 hm, hr,
        readInput_ok.1 hlo, readInput_ok.1 hhi, ?_⟩)
      split at h
      case isTrue hne =>
        cases h
        exact .inl ⟨hne, rfl⟩
      case isFalse heq =>
        obtain ⟨vs, hvs, h⟩ := except_bind_eq_ok.1 h
        cases h
        exact .inr ⟨not_not.1 heq, vs, hvs, rfl⟩

/-- R151: a decoding that fails never carries the code OK. -/
theorem decodeResponse_failed_ne_ok {s : State} {n : Nat} {st : Status}
    (h : decodeResponse s n = .ok (.failed st)) : st ≠ .ok := by
  rcases decodeResponse_ok_cases h with
    ⟨_, hd⟩ | ⟨_, _, _, _, hd⟩ | ⟨_, _, _, _, _, _, _, _, _, ⟨_, hd⟩ | ⟨_, _, _, hd⟩⟩ <;>
    cases hd <;> decide

/-- R125: a response yields at most 127 values, so their number fits NVAL. -/
theorem decodeResponse_values_length {s : State} {n : Nat} {vs : List Half}
    (h : decodeResponse s n = .ok (.values vs)) : vs.length ≤ 127 := by
  rcases decodeResponse_ok_cases h with
    ⟨_, hd⟩ | ⟨_, _, _, _, hd⟩ | ⟨cnt, _, _, _, _, _, _, _, _, ⟨_, hd⟩ | ⟨_, _, hvs, hd⟩⟩ <;>
    cases hd
  have hlen : vs.length = cnt.toNat / 2 := readValues_length hvs
  have := cnt.isLt
  omega

/-! ## The record that a completed command leaves (R27) -/

/-- The code of an outcome is 0x00 for OK only (R29). -/
@[simp] theorem statusCode_eq_zero {st : Status} : statusCode st = 0x00#8 ↔ st = .ok := by
  cases st <;> decide

/-- R27, R85: CRC leaves STATUS and CRCOUT, and nothing else. -/
theorem complete_crc_isSome (s : State) (len crc : Half) (F : ResultCell) :
    let t := s.complete .ok fun r => { r with crcOut := some crc }
    (t.res.read F).isSome = writesCell (.crc len) t.res.status t.res.nval F := by
  cases F <;> simp [ResultRecord.read, writesCell, Instr.mnemonic]

/-- R27, R102: ENC leaves STATUS and the eight FRAME cells, and nothing else. -/
theorem complete_enc_isSome (s : State) (sa fc : Byte) (start count : Half) (f : Vector Byte 8)
    (F : ResultCell) :
    let t := s.complete .ok fun r => { r with frame := frameCells f }
    (t.res.read F).isSome =
      writesCell (.enc sa fc start count) t.res.status t.res.nval F := by
  cases F <;> simp [ResultRecord.read, writesCell, Instr.mnemonic]

/-- R27, R128: DEC with an error code leaves STATUS, and nothing else. -/
theorem complete_failed_isSome {st : Status} (hst : st ≠ .ok) (s : State) (len : Half)
    (F : ResultCell) :
    let t := completeDec s (.failed st)
    (t.res.read F).isSome = writesCell (.dec len) t.res.status t.res.nval F := by
  cases F <;> simp [completeDec, ResultRecord.read, writesCell, Instr.mnemonic, hst]

/-- R27, R128: DEC with OK leaves STATUS, NVAL and `VAL[0 .. NVAL)`, and nothing else. -/
theorem complete_values_isSome {vs : List Half} (hvs : vs.length ≤ 127) (s : State) (len : Half)
    (F : ResultCell) :
    let t := completeDec s (.values vs)
    (t.res.read F).isSome = writesCell (.dec len) t.res.status t.res.nval F := by
  have hmod : vs.length % 256 = vs.length := Nat.mod_eq_of_lt (by omega)
  have hval (k : Nat) : vs[k]?.isSome = decide (k < vs.length) := by
    rw [Bool.eq_iff_iff, isSome_getElem?, decide_eq_true_iff]
  cases F <;>
    simp [completeDec, ResultRecord.read, writesCell, Instr.mnemonic, statusCode, hmod, hval]

/-- Settles O21: each kind of completion leaves its own cells; for DEC, NVAL counts the VAL cells because a response has at most
127 values. -/
theorem completionReplacesTheRecord : Obligations.CompletionReplacesTheRecord := by
  unfold Obligations.CompletionReplacesTheRecord
  intro i s t F h
  rcases exec_next_cases h with
    ⟨len, bs, rfl, _, _, rfl⟩ | ⟨sa, fc, start, count, rfl, rfl⟩ | ⟨len, d, rfl, _, hd, rfl⟩
  · exact complete_crc_isSome s len (crc16 bs) F
  · exact complete_enc_isSome s sa fc start count (requestFrame sa fc start count) F
  · cases d with
    | failed st => exact complete_failed_isSome (decodeResponse_failed_ne_ok hd) s len F
    | values vs => exact complete_values_isSome (decodeResponse_values_length hd) s len F

/-- R27: a cell that the completed command does not write holds no value. -/
theorem exec_next_read_eq_none {i : Instr} {s t : State} {F : ResultCell} (h : exec i s = .next t)
    (hF : writesCell i t.res.status t.res.nval F = false) : t.res.read F = none :=
  Option.not_isSome_iff_eq_none.1 (by simp [completionReplacesTheRecord i s t F h, hF])

/-! ## Host reads of result cells (R28) -/

/-- Settles O17: the two general clauses are the host read's own rule, and the two particular cells are ones that the command did not
write. -/
theorem hostReadsOfResultCells : Obligations.HostReadsOfResultCells := by
  unfold Obligations.HostReadsOfResultCells
  refine ⟨fun s F v hv => hostReadResult_next.2 ⟨v, hv, rfl⟩,
    fun s F hn => hostReadResult_fault.2 ⟨rfl, hn⟩,
    fun s t len h hst => hostReadResult_fault.2 ⟨rfl, exec_next_read_eq_none h ?_⟩,
    fun s t len h => hostReadResult_fault.2 ⟨rfl, exec_next_read_eq_none h rfl⟩⟩
  simp [writesCell, hst]

/-! ## Host accesses to IBUF (R24) -/

theorem hostWriteIbuf_of_ge {i : Nat} {s : State} (b : Byte) (h : s.cfg.bufSize ≤ i) :
    hostWriteIbuf i b s = .refused .ibufIndexOutOfRange := if_pos h

theorem hostReadIbuf_of_ge {i : Nat} {s : State} (h : s.cfg.bufSize ≤ i) :
    hostReadIbuf i s = .refused .ibufIndexOutOfRange := if_pos h

theorem hostReadIbuf_of_unwritten {i : Nat} {s : State} (hi : i < s.cfg.bufSize)
    (hn : s.ibuf.read i = none) : hostReadIbuf i s = .fault .unwrittenInput := by
  rw [hostReadIbuf, if_neg (Nat.not_le.2 hi), afterReads_fault]
  exact readInput_error.2 ⟨rfl, hn⟩

/-- A command that completes leaves IBUF as it was. -/
theorem exec_next_ibuf {i : Instr} {s t : State} (h : exec i s = .next t) : t.ibuf = s.ibuf := by
  obtain ⟨st, own, rfl⟩ := exec_next_complete h
  rfl

/-- A move of the host that is not a write of cell `i` leaves cell `i` as it was. -/
theorem perform_next_read_of_ne_write {a : HostAction} {s t : State} {i : Nat}
    (h : perform a s = .next t) (ha : ∀ b, a ≠ .writeIbuf i b) :
    t.ibuf.read i = s.ibuf.read i := by
  rcases perform_next_cases h with
    ⟨j, b, rfl, _, rfl⟩ | ⟨_, _, rfl, _, _, rfl⟩ | ⟨_, _, rfl, _, he⟩ | ⟨_, _, rfl, _, rfl⟩
  · have hne : i ≠ j := fun hij => ha b (hij ▸ rfl)
    rw [State.setIbuf_ibuf, Memory.read_write, if_neg hne]
  · rfl
  · rw [exec_next_ibuf he, State.setCmd_ibuf]
  · rfl

/-- With no command in flight and a write at the head of the host's moves, that write is the next access. -/
theorem nextAccess_writeIbuf {s : State} {i : Nat} {b : Byte} {rest : List HostAction}
    (hc : s.cmd = none) (hs : s.host.script = .writeIbuf i b :: rest) :
    s.nextAccess = some (.writeIbuf i b) := by
  simp [State.nextAccess, hc, hs]

/-- A step that is not a host write of cell `i` leaves cell `i` as it was. -/
theorem step_next_read_of_ne_write {s t : State} {i : Nat} (h : step s = .next t)
    (hw : ∀ b, s.nextAccess ≠ some (.writeIbuf i b)) : t.ibuf.read i = s.ibuf.read i := by
  rcases step_next_cases h with ⟨_, _, _, _, he⟩ | ⟨_, _, rfl⟩ | ⟨a, rest, hc, hs, hp⟩
  · rw [exec_next_ibuf he]
  · rfl
  · refine perform_next_read_of_ne_write (s := s.setScript rest) hp fun b hab => ?_
    subst hab
    exact hw b (nextAccess_writeIbuf hc hs)

/-- Settles O16: the host's accesses by their own rules, and the frame of a cell over every kind of step. -/
theorem hostAccessToIbuf : Obligations.HostAccessToIbuf := by
  unfold Obligations.HostAccessToIbuf
  refine ⟨fun s i b hi => ⟨hostWriteIbuf_of_ge b hi, hostReadIbuf_of_ge hi⟩,
    fun s i b hi => ⟨s.ibuf.write i b, hostWriteIbuf_next.2 ⟨hi, rfl⟩, ?_, fun j hj => ?_⟩,
    fun s i hi hn => hostReadIbuf_of_unwritten hi hn,
    fun s i b hi hb => hostReadIbuf_next.2 ⟨hi, b, hb, rfl⟩,
    fun s t i h hw => step_next_read_of_ne_write h hw,
    fun s i hn => readInput_error.2 ⟨rfl, hn⟩⟩
  · rw [Memory.read_write, if_pos rfl]
  · rw [Memory.read_write, if_neg hj]

end Sys2Proof.Machine
end

section
/-! PROOFS. Encoding (30_encoding.md): the match and mask table, the fields of a decoded word, and the checks of a command word
(O3, O4, O9). -/

namespace Sys2Proof

/-! ## The fields of a word as numbers (R61 to R63) -/

section Fields

variable (w v : CommandWord)

theorem toNat_opField : (opField w).toNat = w.toNat % 2 ^ 8 := BitVec.extractLsb'_toNat ..

theorem toNat_lenField : (lenField w).toNat = w.toNat / 2 ^ 8 % 2 ^ 16 := by
  rw [lenField, BitVec.extractLsb'_toNat, Nat.shiftRight_eq_div_pow]

theorem toNat_saField : (saField w).toNat = w.toNat / 2 ^ 8 % 2 ^ 8 := by
  rw [saField, BitVec.extractLsb'_toNat, Nat.shiftRight_eq_div_pow]

theorem toNat_fcField : (fcField w).toNat = w.toNat / 2 ^ 16 % 2 ^ 8 := by
  rw [fcField, BitVec.extractLsb'_toNat, Nat.shiftRight_eq_div_pow]

theorem toNat_startField : (startField w).toNat = w.toNat / 2 ^ 24 % 2 ^ 16 := by
  rw [startField, BitVec.extractLsb'_toNat, Nat.shiftRight_eq_div_pow]

theorem toNat_countField : (countField w).toNat = w.toNat / 2 ^ 40 % 2 ^ 16 := by
  rw [countField, BitVec.extractLsb'_toNat, Nat.shiftRight_eq_div_pow]

/-- Nothing stands above the reserved field, so its number is what is left of the word above bit 24. -/
theorem toNat_rsvFieldL : (rsvFieldL w).toNat = w.toNat / 2 ^ 24 := by
  rw [rsvFieldL, BitVec.extractLsb'_toNat, Nat.shiftRight_eq_div_pow]
  omega

/-- Nothing stands above the reserved field, so its number is what is left of the word above bit 56. -/
theorem toNat_rsvFieldE : (rsvFieldE w).toNat = w.toNat / 2 ^ 56 := by
  rw [rsvFieldE, BitVec.extractLsb'_toNat, Nat.shiftRight_eq_div_pow]
  omega

theorem opNumber_eq_iff {n : Nat} (hn : n < 2 ^ 8) :
    w.toNat % 2 ^ 8 = n ↔ opField w = BitVec.ofNat 8 n := by
  rw [← toNat_opField, ← BitVec.toNat_inj, BitVec.toNat_ofNat, Nat.mod_eq_of_lt hn]

theorem rsvNumberL_eq_zero_iff : w.toNat / 2 ^ 24 = 0 ↔ rsvFieldL w = 0#40 := by
  rw [← toNat_rsvFieldL, ← BitVec.toNat_inj, BitVec.toNat_zero]

theorem rsvNumberE_eq_zero_iff : w.toNat / 2 ^ 56 = 0 ↔ rsvFieldE w = 0#8 := by
  rw [← toNat_rsvFieldE, ← BitVec.toNat_inj, BitVec.toNat_zero]

/-! ## The fields of a masked word -/

@[simp] theorem opField_and : opField (w &&& v) = opField w &&& opField v :=
  BitVec.extractLsb'_and

@[simp] theorem lenField_and : lenField (w &&& v) = lenField w &&& lenField v :=
  BitVec.extractLsb'_and

@[simp] theorem rsvFieldL_and : rsvFieldL (w &&& v) = rsvFieldL w &&& rsvFieldL v :=
  BitVec.extractLsb'_and

@[simp] theorem saField_and : saField (w &&& v) = saField w &&& saField v :=
  BitVec.extractLsb'_and

@[simp] theorem fcField_and : fcField (w &&& v) = fcField w &&& fcField v :=
  BitVec.extractLsb'_and

@[simp] theorem startField_and : startField (w &&& v) = startField w &&& startField v :=
  BitVec.extractLsb'_and

@[simp] theorem countField_and : countField (w &&& v) = countField w &&& countField v :=
  BitVec.extractLsb'_and

@[simp] theorem rsvFieldE_and : rsvFieldE (w &&& v) = rsvFieldE w &&& rsvFieldE v :=
  BitVec.extractLsb'_and

end Fields

/-! ## The fields make up the word (R62) -/

/-- The three fields of format L cover the word. -/
theorem eq_iff_fieldsL {w v : CommandWord} : w = v ↔
    opField w = opField v ∧ lenField w = lenField v ∧ rsvFieldL w = rsvFieldL v := by
  refine ⟨fun h => h ▸ ⟨rfl, rfl, rfl⟩, fun h => ?_⟩
  simp only [← BitVec.toNat_inj, toNat_opField, toNat_lenField, toNat_rsvFieldL] at h ⊢
  omega

/-- The six fields of format E cover the word. -/
theorem eq_iff_fieldsE {w v : CommandWord} : w = v ↔
    opField w = opField v ∧ saField w = saField v ∧ fcField w = fcField v ∧
    startField w = startField v ∧ countField w = countField v ∧ rsvFieldE w = rsvFieldE v := by
  refine ⟨fun h => h ▸ ⟨rfl, rfl, rfl, rfl, rfl, rfl⟩, fun h => ?_⟩
  simp only [← BitVec.toNat_inj, toNat_opField, toNat_saField, toNat_fcField, toNat_startField,
    toNat_countField, toNat_rsvFieldE] at h ⊢
  omega

/-! ## The match and mask table (R64) -/

/-- A row of format L compares OP and RSV, and nothing else of the word. -/
theorem and_maskL_eq_iff {w m : CommandWord} (hm : lenField m = 0#16) :
    w &&& 0xFFFFFFFFFF0000FF#64 = m ↔ opField w = opField m ∧ rsvFieldL w = rsvFieldL m := by
  have hop : opField 0xFFFFFFFFFF0000FF#64 = BitVec.allOnes 8 := rfl
  have hlen : lenField 0xFFFFFFFFFF0000FF#64 = 0#16 := rfl
  have hrsv : rsvFieldL 0xFFFFFFFFFF0000FF#64 = BitVec.allOnes 40 := rfl
  simp only [eq_iff_fieldsL, opField_and, lenField_and, rsvFieldL_and, hop, hlen, hrsv, hm,
    BitVec.and_allOnes, BitVec.and_zero, true_and]

/-- A row of format E compares OP and RSV, and nothing else of the word. -/
theorem and_maskE_eq_iff {w m : CommandWord} (hsa : saField m = 0#8) (hfc : fcField m = 0#8)
    (hstart : startField m = 0#16) (hcount : countField m = 0#16) :
    w &&& 0xFF000000000000FF#64 = m ↔ opField w = opField m ∧ rsvFieldE w = rsvFieldE m := by
  have hop : opField 0xFF000000000000FF#64 = BitVec.allOnes 8 := rfl
  have hsa' : saField 0xFF000000000000FF#64 = 0#8 := rfl
  have hfc' : fcField 0xFF000000000000FF#64 = 0#8 := rfl
  have hstart' : startField 0xFF000000000000FF#64 = 0#16 := rfl
  have hcount' : countField 0xFF000000000000FF#64 = 0#16 := rfl
  have hrsv : rsvFieldE 0xFF000000000000FF#64 = BitVec.allOnes 8 := rfl
  simp only [eq_iff_fieldsE, opField_and, saField_and, fcField_and, startField_and, countField_and,
    rsvFieldE_and, hop, hsa, hsa', hfc, hfc', hstart, hstart', hcount, hcount', hrsv,
    BitVec.and_allOnes, BitVec.and_zero, true_and]

theorem matches_crc_row_iff {w : CommandWord} :
    w &&& 0xFFFFFFFFFF0000FF#64 = 0x0000000000000001#64 ↔
      opField w = 1#8 ∧ rsvFieldL w = 0#40 :=
  and_maskL_eq_iff rfl

theorem matches_enc_row_iff {w : CommandWord} :
    w &&& 0xFF000000000000FF#64 = 0x0000000000000002#64 ↔
      opField w = 2#8 ∧ rsvFieldE w = 0#8 :=
  and_maskE_eq_iff rfl rfl rfl rfl

theorem matches_dec_row_iff {w : CommandWord} :
    w &&& 0xFFFFFFFFFF0000FF#64 = 0x0000000000000003#64 ↔
      opField w = 3#8 ∧ rsvFieldL w = 0#40 :=
  and_maskL_eq_iff rfl

/-- The words that match a row with a given mnemonic are the words that decode to a command of that mnemonic. -/
theorem exists_row_matches_iff {w : CommandWord} {name : String} :
    (∃ r ∈ opcodeTable, r.mnemonic = name ∧ w &&& r.mask = r.matchWord) ↔
      ∃ i, decode w = .ok i ∧ i.mnemonic = name := by
  simp only [opcodeTable, List.mem_cons, List.not_mem_nil, or_false, exists_eq_left,
    matches_crc_row_iff, matches_enc_row_iff, matches_dec_row_iff, decode_ok,
    or_and_right, exists_or, and_assoc, exists_and_left, Instr.mnemonic]
  simp only [and_left_comm, and_comm]

/-- Every row compares all of OP, so a word that matches a row has that row's OP. -/
theorem opField_of_row_matches {w : CommandWord} {r : OpcodeRow} (hr : r ∈ opcodeTable)
    (h : w &&& r.mask = r.matchWord) : opField w = opField r.matchWord := by
  have hmask : ∀ q ∈ opcodeTable, opField q.mask = BitVec.allOnes 8 := by decide
  rw [← h, opField_and, hmask r hr, BitVec.and_allOnes]

/-- "the rows have different OP values" -/
theorem row_eq_of_opField_eq : ∀ r ∈ opcodeTable, ∀ q ∈ opcodeTable,
    opField r.matchWord = opField q.matchWord → r = q := by decide

/-- Settles O3: a row is matched exactly when the decoder accepts, format by format, and the OP of a word picks its row. -/
theorem wordIsCommandExactlyWhenARowMatches :
    Obligations.WordIsCommandExactlyWhenARowMatches := by
  unfold Obligations.WordIsCommandExactlyWhenARowMatches
  refine ⟨rfl, fun w => ⟨fun ⟨i, hi⟩ => ?_, fun ⟨r, hr, h⟩ => ?_⟩,
    fun w i hi => exists_row_matches_iff.2 ⟨i, hi, rfl⟩, fun w r hr q hq hwr hwq => ?_⟩
  · obtain ⟨r, hr, _, h⟩ := exists_row_matches_iff.2 ⟨i, hi, rfl⟩
    exact ⟨r, hr, h⟩
  · obtain ⟨i, hi, _⟩ := exists_row_matches_iff.1 ⟨r, hr, rfl, h⟩
    exact ⟨i, hi⟩
  · refine row_eq_of_opField_eq r hr q hq ?_
    rw [← opField_of_row_matches hr hwr, opField_of_row_matches hq hwq]

/-! ## The operands of a decoded word (R61 to R63) -/

theorem decode_eq_crc {w : CommandWord} {len : Half} : decode w = .ok (.crc len) ↔
    opField w = 1#8 ∧ rsvFieldL w = 0#40 ∧ len = lenField w := by
  simp [decode_ok]

theorem decode_eq_enc {w : CommandWord} {sa fc : Byte} {start count : Half} :
    decode w = .ok (.enc sa fc start count) ↔ opField w = 2#8 ∧ rsvFieldE w = 0#8 ∧
      sa = saField w ∧ fc = fcField w ∧ start = startField w ∧ count = countField w := by
  simp [decode_ok]

theorem decode_eq_dec {w : CommandWord} {len : Half} : decode w = .ok (.dec len) ↔
    opField w = 3#8 ∧ rsvFieldL w = 0#40 ∧ len = lenField w := by
  simp [decode_ok]

/-- Settles O4: the decoder hands out the word's fields, and each field is the number that its bit range says. -/
theorem operandsAreTheFieldsOfTheWord : Obligations.OperandsAreTheFieldsOfTheWord := by
  unfold Obligations.OperandsAreTheFieldsOfTheWord
  refine ⟨fun w len h => ?_, fun w sa fc start count h => ?_, fun w len h => ?_⟩
  · obtain ⟨hop, hrsv, rfl⟩ := decode_eq_crc.1 h
    exact ⟨(opNumber_eq_iff w (by decide)).2 hop, toNat_lenField w,
      (rsvNumberL_eq_zero_iff w).2 hrsv⟩
  · obtain ⟨hop, hrsv, rfl, rfl, rfl, rfl⟩ := decode_eq_enc.1 h
    exact ⟨(opNumber_eq_iff w (by decide)).2 hop, toNat_saField w, toNat_fcField w,
      toNat_startField w, toNat_countField w, (rsvNumberE_eq_zero_iff w).2 hrsv⟩
  · obtain ⟨hop, hrsv, rfl⟩ := decode_eq_dec.1 h
    exact ⟨(opNumber_eq_iff w (by decide)).2 hop, toNat_lenField w,
      (rsvNumberL_eq_zero_iff w).2 hrsv⟩

/-- R67: a word of format L with its reserved bits 0 decodes to a command that asks for its LEN to fit. -/
theorem decode_formatL {w : CommandWord} (hop : opField w = 1#8 ∨ opField w = 3#8)
    (hrsv : rsvFieldL w = 0#40) : ∃ i, decode w = .ok i ∧
      ∀ c, i.wellFormed c = decide ((lenField w).toNat ≤ c.bufSize) := by
  rcases hop with hop | hop
  · exact ⟨_, decode_eq_crc.2 ⟨hop, hrsv, rfl⟩, fun _ => rfl⟩
  · exact ⟨_, decode_eq_dec.2 ⟨hop, hrsv, rfl⟩, fun _ => rfl⟩

end Sys2Proof

namespace Sys2Proof.Machine

/-! ## The step of a word in CMD (R68) -/

theorem step_of_decode_ok {s : State} {w : CommandWord} {i : Instr} (hc : s.cmd = some w)
    (hd : decode w = .ok i) : step s = exec i s := by
  simp only [step, hc, runCommand, hd]

theorem step_of_decode_error {s : State} {w : CommandWord} {e : DecodeError} (hc : s.cmd = some w)
    (hd : decode w = .error e) : step s = .refused (refusalOf e) := by
  simp only [step, hc, runCommand, hd]

theorem exec_ne_refused {i : Instr} {s : State} (hw : i.wellFormed s.cfg = true) (r : Refusal) :
    exec i s ≠ .refused r := by
  simp [exec_refused, hw]

/-- R27: every completion leaves a STATUS. -/
theorem exec_next_status_isSome {i : Instr} {s t : State} (h : exec i s = .next t) :
    t.res.status.isSome = true := by
  simpa [ResultRecord.read, writesCell] using completionReplacesTheRecord i s t .status h

/-- A word in CMD that passes the three checks is executed by its rule. -/
theorem step_of_passes_checks {s : State} {w : CommandWord} {i : Instr} (hc : s.cmd = some w)
    (hd : decode w = .ok i) (hw : i.wellFormed s.cfg = true) :
    ∃ j, decode w = .ok j ∧ step s = exec j s ∧ (∀ r, step s ≠ .refused r) ∧
      ∀ t, step s = .next t → t.res.status.isSome = true := by
  have hstep := step_of_decode_ok hc hd
  exact ⟨i, hd, hstep, fun r => hstep ▸ exec_ne_refused hw r,
    fun t ht => exec_next_status_isSome (hstep ▸ ht)⟩

/-- Settles O9: the first two checks are the decoder's, the third is the one refusal that the decoded command itself can give. -/
theorem commandWordsAreCheckedInOrder : Obligations.CommandWordsAreCheckedInOrder := by
  unfold Obligations.CommandWordsAreCheckedInOrder
  intro s w hc
  simp (disch := decide) only [opNumber_eq_iff, rsvNumberL_eq_zero_iff, rsvNumberE_eq_zero_iff,
    ← toNat_lenField, ne_eq]
  refine ⟨fun hop => ?_, fun h => ?_, fun h => ?_, fun ⟨hop, hrsv, hlen⟩ => ?_, ?_⟩
  · simp only [not_or] at hop
    exact step_of_decode_error hc (decode_reservedOpcode.2 hop)
  · exact step_of_decode_error hc (decode_reservedBitsSet.2 (.inl h))
  · exact step_of_decode_error hc (decode_reservedBitsSet.2 (.inr h))
  · obtain ⟨i, hd, hw⟩ := decode_formatL hop hrsv
    rw [step_of_decode_ok hc hd]
    exact exec_refused.2 ⟨by simpa [hw] using hlen, rfl⟩
  · rintro (⟨hop, hrsv, hlen⟩ | ⟨hop, hrsv⟩)
    · obtain ⟨i, hd, hw⟩ := decode_formatL hop hrsv
      exact step_of_passes_checks hc hd (by simpa [hw] using hlen)
    · exact step_of_passes_checks hc (decode_eq_enc.2 ⟨hop, hrsv, rfl, rfl, rfl, rfl⟩) rfl

end Sys2Proof.Machine
end

section
/-! PROOFS. The CRC-16 engine over the numbers (40_crc.md R80 to R83) and the CRC command (R85) (O25, O26, O27, O31). -/

namespace Sys2Proof.Machine

/-! ## The bit step and the byte step (R80, R81) -/

/-- Bit 0 of the accumulator says whether it is odd. -/
theorem getLsbD_zero_eq_decide_odd (acc : Half) :
    acc.getLsbD 0 = decide (acc.toNat % 2 = 1) :=
  Nat.testBit_zero acc.toNat

/-- Settles O25: an odd accumulator has bit 0 set, and a logical shift right by one place halves the number. -/
theorem crcBitStep : Obligations.CrcBitStep := by
  unfold Obligations.CrcBitStep
  intro acc
  have hbit := getLsbD_zero_eq_decide_odd acc
  have hshift : (acc >>> 1).toNat = acc.toNat / 2 := Nat.shiftRight_one acc.toNat
  split
  case isTrue hodd =>
    rw [crcBit_odd (hbit.trans (decide_eq_true hodd)), BitVec.toNat_xor, hshift]
    rfl
  case isFalse heven =>
    rw [crcBit_even (hbit.trans (decide_eq_false heven)), hshift]

/-- `n` bit steps are the bit step iterated `n` times. -/
theorem crcBits_eq_iterate (n : Nat) (acc : Half) : crcBits n acc = crcBit^[n] acc := by
  induction n generalizing acc with
  | zero => rfl
  | succ n ih => rw [crcBits_succ, ih, Function.iterate_succ_apply]

/-- XORing a byte into the accumulator is the XOR of the numbers. -/
theorem toNat_xor_byte (acc : Half) (b : Byte) :
    (acc ^^^ b.setWidth 16).toNat = acc.toNat ^^^ b.toNat := by
  rw [BitVec.toNat_xor, BitVec.toNat_setWidth_of_le (by decide)]

/-- Settles O26: a byte has no bits above bit 7, so XORing it in leaves the high byte and changes the low one. -/
theorem crcByteStep : Obligations.CrcByteStep := by
  unfold Obligations.CrcByteStep
  intro acc b
  rw [toNat_xor_byte]
  refine ⟨crcBits_eq_iterate 8 _, ?high, ?low⟩
  case high =>
    rw [Nat.xor_div_two_pow (n := 8), Nat.div_eq_of_lt b.isLt, Nat.xor_zero]
  case low =>
    rw [Nat.xor_mod_two_pow (n := 8), Nat.mod_eq_of_lt b.isLt]

/-! ## The CRC of a sequence (R82, R83) -/

/-- Settles O27: the CRC of a sequence goes on from the CRC of what came before. -/
theorem crcOfASequence : Obligations.CrcOfASequence :=
  ⟨crc16_nil, fun bs b => crc16_append bs [b]⟩

/-- R85's example; the value is that of 90_conflicts.md C1. -/
theorem crc16_request_example : crc16 [0x01, 0x03, 0x00, 0x01, 0x00, 0x01] = 0xCAD5#16 := by
  decide +kernel

/-! ## The CRC command (R85) -/

/-- A buffer that holds the bytes of a sequence gives that sequence when it is read from its start (R46). -/
theorem readInputs_of_holdsInput {s : State} {bs : List Byte} (h : s.HoldsInput bs) :
    readInputs s 0 bs.length = .ok bs :=
  readInputs_ok.2 ⟨rfl, fun k hk => (Nat.zero_add k).symm ▸ h k hk⟩

/-- CRC over written input completes with the CRC of the bytes, and changes CMD and the record only. -/
theorem exec_crc_of_holdsInput {s : State} {len : Half} {bs : List Byte}
    (hfit : len.toNat ≤ s.cfg.bufSize) (hlen : bs.length = len.toNat) (hbs : s.HoldsInput bs) :
    exec (.crc len) s = .next { s with
      cmd := none
      res := { ResultRecord.blank with status := some 0x00, crcOut := some (crc16 bs) } } :=
  execCrc_next.2 ⟨hfit, bs, hlen ▸ readInputs_of_holdsInput hbs, rfl⟩

/-- CRC that reads an unwritten cell faults (R46). -/
theorem exec_crc_of_unwritten {s : State} {len : Half} (hfit : len.toNat ≤ s.cfg.bufSize)
    (hn : ∃ k < len.toNat, s.ibuf.read k = none) :
    exec (.crc len) s = .fault .unwrittenInput := by
  rw [exec, execCrc, whenLenFits_of_le _ hfit, afterReads_fault, readInputs_error]
  simpa only [Nat.zero_add, true_and] using hn

/-- CRC whose length exceeds the buffer is refused (R67). -/
theorem exec_crc_of_gt {s : State} {len : Half} (h : s.cfg.bufSize < len.toNat) :
    exec (.crc len) s = .refused .lenExceedsBuffer :=
  exec_refused.2 ⟨decide_eq_false (Nat.not_le.2 h), rfl⟩

/-- The words of CRC commands are the words that match CRC's row (R64). -/
theorem exists_decode_eq_crc_iff {w : CommandWord} : (∃ len, decode w = .ok (.crc len)) ↔
    w &&& 0xFFFFFFFFFF0000FF#64 = 0x0000000000000001#64 := by
  simp only [decode_eq_crc, matches_crc_row_iff, exists_and_left, exists_eq, and_true]

/-- Settles O31: a CRC completes, faults or is refused by its reads and its length; `LEN = 0` is the completion that needs no written
cell (R83), and the example is a completion over six bytes. -/
theorem crcCommandFollowsItsRule : Obligations.CrcCommandFollowsItsRule := by
  unfold Obligations.CrcCommandFollowsItsRule
  refine ⟨fun _ => rfl, fun _ => exists_decode_eq_crc_iff,
    fun s len bs hfit hlen hbs => exec_crc_of_holdsInput hfit hlen hbs,
    fun s len hfit hn => exec_crc_of_unwritten hfit hn,
    fun s len h => exec_crc_of_gt h,
    fun s => exec_crc_of_holdsInput (bs := []) (Nat.zero_le _) rfl nofun,
    fun s hfit hbs => ⟨_, exec_crc_of_holdsInput hfit rfl hbs, ?_⟩⟩
  exact congrArg some crc16_request_example

end Sys2Proof.Machine
end

section
/-! PROOFS. The request encoder's frame over the numbers (41_request_encoder.md R100) and the ENC command (R102) (O32). -/

namespace Sys2Proof.Machine

/-! ## The two bytes of a 16-bit value as numbers (R10) -/

theorem hi8_eq_ofNat_div (v : Half) : hi8 v = BitVec.ofNat 8 (v.toNat / 256) := by
  refine BitVec.eq_of_toNat_eq ?_
  rw [hi8, BitVec.extractLsb'_toNat, Nat.shiftRight_eq_div_pow, BitVec.toNat_ofNat]

theorem lo8_eq_ofNat_mod (v : Half) : lo8 v = BitVec.ofNat 8 (v.toNat % 256) := by
  refine BitVec.eq_of_toNat_eq ?_
  rw [lo8, BitVec.extractLsb'_toNat, Nat.shiftRight_zero, BitVec.toNat_ofNat, Nat.mod_mod]

/-! ## The ENC command (R102) -/

/-- R101: ENC completes in every state, and changes CMD and the record only. -/
theorem exec_enc (s : State) (sa fc : Byte) (start count : Half) :
    exec (.enc sa fc start count) s = .next { s with
      cmd := none
      res := { ResultRecord.blank with
        status := some 0x00
        frame := frameCells (requestFrame sa fc start count) } } := rfl

/-- The words of ENC commands are the words that match ENC's row (R64). -/
theorem exists_decode_eq_enc_iff {w : CommandWord} :
    (∃ sa fc start count, decode w = .ok (.enc sa fc start count)) ↔
      w &&& 0xFF000000000000FF#64 = 0x0000000000000002#64 := by
  simp only [decode_eq_enc, matches_enc_row_iff, exists_and_left, exists_eq, and_true]

/-- Bytes 0 to 5 of the frame are the payload that its CRC is computed over (R100). -/
theorem requestPayload_getElem? (sa fc : Byte) (start count : Half) (k : Fin 6) :
    (requestPayload sa fc start count)[k.val]? =
      (frameCells (requestFrame sa fc start count))[k.val] := by
  fin_cases k <;> rfl

/-! ### R102's corner cases and its example -/

theorem requestFrame_all_zero :
    requestFrame 0x00 0x00 0x0000 0x0000 = #v[0x00, 0x00, 0x00, 0x00, 0x00, 0x00, 0x00, 0x1B] := by
  decide +kernel

theorem requestFrame_all_ones :
    requestFrame 0xFF 0xFF 0xFFFF 0xFFFF = #v[0xFF, 0xFF, 0xFF, 0xFF, 0xFF, 0xFF, 0x01, 0x94] := by
  decide +kernel

theorem requestFrame_example :
    requestFrame 0x01 0x03 0x0001 0x0001 = #v[0x01, 0x03, 0x00, 0x01, 0x00, 0x01, 0xD5, 0xCA] := by
  decide +kernel

/-- Settles O32: ENC has one outcome, whose frame is its payload and the two bytes of the payload's CRC; the corner cases and the
example are instances of it. -/
theorem encCommandFollowsItsRule : Obligations.EncCommandFollowsItsRule := by
  unfold Obligations.EncCommandFollowsItsRule
  refine ⟨fun _ _ _ _ => rfl, fun _ => exists_decode_eq_enc_iff, fun s sa fc start count => ?_,
    fun s => ⟨_, exec_enc s _ _ _ _, congrArg frameCells requestFrame_all_zero⟩,
    fun s => ⟨_, exec_enc s _ _ _ _, congrArg frameCells requestFrame_all_ones⟩,
    fun s => ⟨_, exec_enc s _ _ _ _, congrArg frameCells requestFrame_example⟩⟩
  exact ⟨_, exec_enc s sa fc start count, rfl, rfl,
    congrArg some (hi8_eq_ofNat_div start), congrArg some (lo8_eq_ofNat_mod start),
    congrArg some (hi8_eq_ofNat_div count), congrArg some (lo8_eq_ofNat_mod count),
    requestPayload sa fc start count, rfl, requestPayload_getElem? sa fc start count,
    congrArg some (lo8_eq_ofNat_mod _), congrArg some (hi8_eq_ofNat_div _)⟩

end Sys2Proof.Machine
end

section
/-! PROOFS. The response decoder (42_response_decoder.md R122 to R126) as a function of the bytes it is given, and the DEC command
(R127, R128) (O36 to O39, O43). -/

namespace Sys2Proof.Machine

/-! ## The decoder of written bytes (R122 to R126) -/

/-- R125: the first `n` register values of a response, big-endian, from byte 3 on. -/
def registerValues (bs : List Byte) (n : Nat) : List Half :=
  (List.range n).map fun k => bigEndian (bs.getD (2 * k + 3) 0) (bs.getD (2 * k + 4) 0)

/-- R43: a big-endian value as a number; it always fits. -/
theorem toNat_bigEndian (a b : Byte) : (bigEndian a b).toNat = a.toNat * 256 + b.toNat := by
  rw [bigEndian, BitVec.toNat_ofNat, Nat.mod_eq_of_lt]
  have := a.isLt
  have := b.isLt
  omega

/-- What DEC makes of a sequence of bytes: the checks of R122 to R124 in order, then extraction (R125). Tied to the model by
`decodeResponse_of_holdsInput`. -/
def decodeBytes (bs : List Byte) : Decoded :=
  if bs.length < 5 then .failed .shortRead
  else if bs.length < (bs.getD 2 0).toNat + 5 then .failed .malformedFrame
  else if crc16 (bs.take (bs.length - 2)) ≠
      lowFirst (bs.getD (bs.length - 2) 0) (bs.getD (bs.length - 1) 0) then .failed .crcMismatch
  else .values (registerValues bs (valueCount (bs.getD 2 0)))

@[simp] theorem registerValues_length (bs : List Byte) (n : Nat) :
    (registerValues bs n).length = n := by
  simp [registerValues]

theorem registerValues_getElem? (bs : List Byte) (n k : Nat) : (registerValues bs n)[k]? =
    if k < n then some (bigEndian (bs.getD (2 * k + 3) 0) (bs.getD (2 * k + 4) 0)) else none := by
  split
  case isTrue hk => rw [registerValues, List.getElem?_map, List.getElem?_range hk, Option.map_some]
  case isFalse hk => rw [List.getElem?_eq_none (by rwa [registerValues_length, ← Nat.not_lt])]

/-- The values lie within the declared bytes, so what follows those does not change them. -/
theorem registerValues_append {bs : List Byte} {n : Nat} (h : 2 * n + 3 ≤ bs.length)
    (rest : List Byte) : registerValues (bs ++ rest) n = registerValues bs n := by
  refine List.map_congr_left fun k hk => ?_
  have hk' : k < n := List.mem_range.1 hk
  rw [List.getD_append _ _ _ _ (by omega), List.getD_append _ _ _ _ (by omega)]

/-- Each cell below the length of written input holds its byte. -/
theorem read_of_holdsInput {s : State} {bs : List Byte} {k : Nat} (h : s.HoldsInput bs)
    (hk : k < bs.length) : s.ibuf.read k = some (bs.getD k 0) := by
  rw [h k hk, List.getD_eq_getElem _ _ hk, List.getElem?_eq_getElem hk]

/-- A buffer that holds a sequence holds every prefix of it. -/
theorem holdsInput_take {s : State} {bs : List Byte} (h : s.HoldsInput bs) (n : Nat) :
    s.HoldsInput (bs.take n) := by
  intro k hk
  rw [List.length_take] at hk
  rw [h k (by omega), List.getElem?_take_of_lt (by omega)]

/-- R125: extraction from written input. -/
theorem readValues_of_holdsInput {s : State} {bs : List Byte} {n : Nat} (h : s.HoldsInput bs)
    (hn : 2 * n + 3 ≤ bs.length) : readValues s 3 n = .ok (registerValues bs n) := by
  obtain ⟨vs, hvs, hlen, hval⟩ := readValues_of_written (s := s) (j := 3) (n := n) fun k hk => by
    rw [read_of_holdsInput h (by omega), Option.isSome_some]
  rw [hvs]
  refine congrArg Except.ok (List.ext_getElem? fun k => ?_)
  rw [registerValues_getElem?]
  split
  case isTrue hk =>
    obtain ⟨a, b, ha, hb, hv⟩ := hval k hk
    rw [show 3 + 2 * k = 2 * k + 3 by omega, read_of_holdsInput h (by omega)] at ha
    rw [show 3 + (2 * k + 1) = 2 * k + 4 by omega, read_of_holdsInput h (by omega)] at hb
    rw [hv, Option.some.inj ha, Option.some.inj hb]
  case isFalse hk => rw [List.getElem?_eq_none (by omega)]

/-- On written input the decoder yields what the bytes alone say. -/
theorem decodeResponse_of_holdsInput {s : State} {bs : List Byte} (h : s.HoldsInput bs) :
    decodeResponse s bs.length = .ok (decodeBytes bs) := by
  unfold decodeBytes
  split
  case isTrue h5 => exact decodeResponse_short h5
  case isFalse h5 =>
    have hcnt := read_of_holdsInput h (k := 2) (by omega)
    split
    case isTrue hm => exact decodeResponse_malformed (by omega) hcnt hm
    case isFalse hm =>
      have hregion := readInputs_of_holdsInput (holdsInput_take h (bs.length - 2))
      rw [List.length_take_of_le (by omega)] at hregion
      rw [decodeResponse_checked hcnt (by omega) hregion (read_of_holdsInput h (by omega))
        (read_of_holdsInput h (by omega)),
        readValues_of_holdsInput h (by rw [valueCount]; omega)]
      split <;> rfl

/-- R124 to R126 for a response split into the bytes its CRC is computed over and its CRC. -/
theorem decodeBytes_append {region : List Byte} {lo hi cnt : Byte} (hcnt : region[2]? = some cnt)
    (hlen : cnt.toNat + 5 ≤ region.length + 2) : decodeBytes (region ++ [lo, hi]) =
      if crc16 region ≠ lowFirst lo hi then .failed .crcMismatch
      else .values (registerValues region (valueCount cnt)) := by
  have hn : (region ++ [lo, hi]).length = region.length + 2 := by simp
  have h2 : (region ++ [lo, hi]).getD 2 0 = cnt := by
    rw [List.getD_append _ _ _ _ (by omega), List.getD_eq_getElem?_getD, hcnt, Option.getD_some]
  have hlo : (region ++ [lo, hi]).getD region.length 0 = lo := by simp
  have hhi : (region ++ [lo, hi]).getD (region.length + 1) 0 = hi := by simp
  have htake : (region ++ [lo, hi]).take region.length = region := by simp
  rw [decodeBytes, hn, h2, if_neg (by omega), if_neg (by omega), Nat.add_sub_cancel,
    show region.length + 2 - 1 = region.length + 1 from rfl, hlo, hhi, htake,
    registerValues_append (by rw [valueCount]; omega)]

/-! ## Faults of the decoder (R46) -/

/-- A computation of two parts fails exactly when one of them does. -/
theorem except_bind_eq_error {ε α β : Type} {x : Except ε α} {f : α → Except ε β} {e : ε} :
    (x >>= f) = .error e ↔ x = .error e ∨ ∃ a, x = .ok a ∧ f a = .error e := by
  cases x <;> simp [bind, Except.bind]

theorem readValues_error {s : State} {j n : Nat} {f : Fault} (h : readValues s j n = .error f) :
    f = .unwrittenInput := by
  induction n generalizing j with
  | zero => cases h
  | succ n ih =>
    simp only [readValues_succ, except_bind_eq_error] at h
    obtain h | ⟨_, _, h | ⟨_, _, h | ⟨_, _, h⟩⟩⟩ := h
    · exact (readInput_error.1 h).1
    · exact (readInput_error.1 h).1
    · exact ih h
    · cases h

/-- The decoder has one fault, that of a read of an unwritten cell. -/
theorem decodeResponse_error {s : State} {n : Nat} {f : Fault}
    (h : decodeResponse s n = .error f) : f = .unwrittenInput := by
  unfold decodeResponse at h
  split at h
  · cases h
  obtain h | ⟨cnt, _, h⟩ := except_bind_eq_error.1 h
  · exact (readInput_error.1 h).1
  split at h
  · cases h
  obtain h | ⟨region, _, h⟩ := except_bind_eq_error.1 h
  · exact (readInputs_error.1 h).1
  obtain h | ⟨lo, _, h⟩ := except_bind_eq_error.1 h
  · exact (readInput_error.1 h).1
  obtain h | ⟨hi, _, h⟩ := except_bind_eq_error.1 h
  · exact (readInput_error.1 h).1
  split at h
  · cases h
  obtain h | ⟨vs, _, h⟩ := except_bind_eq_error.1 h
  · exact readValues_error h
  · cases h

/-- From five bytes on, the decoder yields something only if `IBUF[2]` holds a value. -/
theorem read_two_ne_none_of_decodeResponse_ok {s : State} {n : Nat} {d : Decoded} (h5 : 5 ≤ n)
    (h : decodeResponse s n = .ok d) : s.ibuf.read 2 ≠ none := by
  rcases decodeResponse_ok_cases h with
    ⟨hlt, _⟩ | ⟨cnt, _, hcnt, _⟩ | ⟨cnt, _, _, _, hcnt, _⟩
  · omega
  · simp [hcnt]
  · simp [hcnt]

/-- Past the length checks, the decoder yields something only if every cell below the length holds a value. -/
theorem read_ne_none_of_decodeResponse_ok {s : State} {n : Nat} {cnt : Byte} {d : Decoded}
    (hcnt : s.ibuf.read 2 = some cnt) (hlen : cnt.toNat + 5 ≤ n)
    (h : decodeResponse s n = .ok d) {k : Nat} (hk : k < n) : s.ibuf.read k ≠ none := by
  rcases decodeResponse_ok_cases h with
    ⟨hlt, _⟩ | ⟨cnt', _, hcnt', hlt, _⟩ | ⟨_, region, lo, hi, _, _, hregion, hlo, hhi, _⟩
  · omega
  · rw [hcnt, Option.some.injEq] at hcnt'
    subst hcnt'
    omega
  · obtain ⟨hrlen, hread⟩ := readInputs_ok.1 hregion
    obtain hk' | rfl | rfl : k < n - 2 ∨ k = n - 2 ∨ k = n - 1 := by omega
    · have hkr := hread k hk'
      rw [Nat.zero_add, List.getElem?_eq_getElem (by omega)] at hkr
      simp [hkr]
    · simp [hlo]
    · simp [hhi]

/-! ## Completion of DEC (R128) -/

/-- The STATUS code of what DEC decoded. -/
def Decoded.code : Decoded → Byte
  | .failed st => statusCode st
  | .values _ => 0x00

/-- The NVAL cell of what DEC decoded. -/
def Decoded.nval : Decoded → Option Byte
  | .failed _ => none
  | .values vs => some (BitVec.ofNat 8 vs.length)

/-- The VAL cells of what DEC decoded. -/
def Decoded.cells : Decoded → Vector (Option Half) 127
  | .failed _ => .replicate 127 none
  | .values vs => valueCells vs

/-- DEC completes by writing STATUS, NVAL and VAL, and changes CMD and the record only. -/
theorem completeDec_eq (s : State) (d : Decoded) : completeDec s d = { s with
    cmd := none
    res := { ResultRecord.blank with status := some d.code, nval := d.nval, val := d.cells } } := by
  cases d <;> rfl

/-- R128: with an error code, neither NVAL nor any VAL cell holds a value. -/
theorem no_values_of_code_ne_zero {d : Decoded} (h : d.code ≠ 0x00) :
    d.nval = none ∧ d.cells = .replicate 127 none := by
  cases d with
  | failed st => exact ⟨rfl, rfl⟩
  | values vs => exact absurd rfl h

/-- The code follows the three checks, in their order (R127). -/
theorem decodeBytes_code (bs : List Byte) : (decodeBytes bs).code =
    if bs.length < 5 then 0x01
    else if bs.length < (bs.getD 2 0).toNat + 5 then 0x02
    else if crc16 (bs.take (bs.length - 2)) ≠
        lowFirst (bs.getD (bs.length - 2) 0) (bs.getD (bs.length - 1) 0) then 0x03
    else 0x00 := by
  simp only [decodeBytes, apply_ite Decoded.code]
  rfl

/-- The code 0x00 means that the values were extracted. -/
theorem decodeBytes_of_code_eq_zero {bs : List Byte} (h : (decodeBytes bs).code = 0x00) :
    decodeBytes bs = .values (registerValues bs (valueCount (bs.getD 2 0))) := by
  unfold decodeBytes at h ⊢
  split at h
  case isTrue => cases h
  case isFalse h5 =>
    split at h
    case isTrue => cases h
    case isFalse hm =>
      split at h
      case isTrue => cases h
      case isFalse hcrc => rw [if_neg h5, if_neg hm, if_neg hcrc]

/-! ## The DEC command (R127) -/

/-- Every block has room for the five bytes of the shortest response (R9). -/
theorem five_le_bufSize (c : Config) : 5 ≤ c.bufSize := Nat.le_add_left 5 _

/-- DEC completes with what it decoded. -/
theorem exec_dec_of_decoded {s : State} {len : Half} {d : Decoded}
    (hfit : len.toNat ≤ s.cfg.bufSize) (h : decodeResponse s len.toNat = .ok d) :
    exec (.dec len) s = .next (completeDec s d) :=
  execDec_next.2 ⟨hfit, d, h, rfl⟩

/-- DEC of written input completes with what the bytes alone say. -/
theorem exec_dec_of_holdsInput {s : State} {len : Half} {bs : List Byte}
    (hfit : len.toNat ≤ s.cfg.bufSize) (hlen : bs.length = len.toNat) (h : s.HoldsInput bs) :
    exec (.dec len) s = .next (completeDec s (decodeBytes bs)) :=
  exec_dec_of_decoded hfit (hlen ▸ decodeResponse_of_holdsInput h)

/-- DEC that decodes nothing faults, with the one fault of its reads. -/
theorem exec_dec_of_not_decoded {s : State} {len : Half} (hfit : len.toNat ≤ s.cfg.bufSize)
    (h : ∀ d, decodeResponse s len.toNat ≠ .ok d) :
    exec (.dec len) s = .fault .unwrittenInput := by
  rw [exec, execDec, whenLenFits_of_le _ hfit, afterReads_fault]
  cases hd : decodeResponse s len.toNat with
  | ok d => exact absurd hd (h d)
  | error f => rw [decodeResponse_error hd]

/-- DEC whose length exceeds the buffer is refused (R67). -/
theorem exec_dec_of_gt {s : State} {len : Half} (h : s.cfg.bufSize < len.toNat) :
    exec (.dec len) s = .refused .lenExceedsBuffer :=
  exec_refused.2 ⟨decide_eq_false (Nat.not_le.2 h), rfl⟩

/-- The words of DEC commands are the words that match DEC's row (R64). -/
theorem exists_decode_eq_dec_iff {w : CommandWord} : (∃ len, decode w = .ok (.dec len)) ↔
    w &&& 0xFFFFFFFFFF0000FF#64 = 0x0000000000000003#64 := by
  simp only [decode_eq_dec, matches_dec_row_iff, exists_and_left, exists_eq, and_true]

/-- R124: DEC of a response split into its CRC's bytes and its CRC, when the length checks pass. -/
theorem exec_dec_of_region {s : State} {len : Half} {region : List Byte} {lo hi cnt : Byte}
    (hlen : len.toNat = region.length + 2) (hfit : len.toNat ≤ s.cfg.bufSize)
    (h : s.HoldsInput (region ++ [lo, hi])) (hcnt : region[2]? = some cnt)
    (hle : cnt.toNat + 5 ≤ len.toNat) : exec (.dec len) s = .next (completeDec s
      (if crc16 region ≠ lowFirst lo hi then .failed .crcMismatch
       else .values (registerValues region (valueCount cnt)))) := by
  rw [exec_dec_of_holdsInput hfit (by simp [hlen]) h, decodeBytes_append hcnt (hlen ▸ hle)]

/-- R128: a DEC that completes with another code than OK writes STATUS only. -/
theorem exec_dec_next_status_only {s t : State} {len : Half} (h : exec (.dec len) s = .next t)
    (hst : t.res.status ≠ some 0x00) :
    ∃ st, t.res = { ResultRecord.blank with status := some st } := by
  obtain ⟨_, d, _, rfl⟩ := execDec_next.1 h
  cases d with
  | failed st => exact ⟨statusCode st, rfl⟩
  | values vs => exact absurd rfl hst

/-- R127's example. -/
theorem decodeBytes_example :
    decodeBytes [0x01, 0x03, 0x02, 0x00, 0x7B, 0xF8, 0x67] = .values [0x007B] := by
  decide +kernel

/-- Settles O36: five bytes fit every block, so a shorter length is not refused, and its check comes before any read. -/
theorem shortResponseIsAShortRead : Obligations.ShortResponseIsAShortRead := by
  unfold Obligations.ShortResponseIsAShortRead
  intro s len h
  exact exec_dec_of_decoded (h.le.trans (five_le_bufSize s.cfg)) (decodeResponse_short h)

/-- Settles O37: the second check reads `IBUF[2]` only and compares without a carry lost. -/
theorem truncatedResponseIsMalformed : Obligations.TruncatedResponseIsMalformed := by
  unfold Obligations.TruncatedResponseIsMalformed
  intro s len cnt h5 hfit hcnt hlt
  exact exec_dec_of_decoded hfit (decodeResponse_malformed h5 hcnt hlt)

/-- Settles O38: the CRC check is the third branch of the decoder of the written bytes. -/
theorem wrongCrcIsACrcMismatch : Obligations.WrongCrcIsACrcMismatch := by
  unfold Obligations.WrongCrcIsACrcMismatch
  intro s len region lo hi cnt hlen hfit h hcnt hle hcrc
  rw [exec_dec_of_region hlen hfit h hcnt hle,
    if_pos (show crc16 region ≠ lowFirst lo hi from hcrc)]
  rfl

/-- Settles O39: with a matching CRC the decoder extracts the values, which lie before the CRC. -/
theorem validResponseYieldsItsValues : Obligations.ValidResponseYieldsItsValues := by
  unfold Obligations.ValidResponseYieldsItsValues
  refine ⟨fun s t len => exec_dec_next_status_only,
    fun s len region lo hi cnt hlen hfit h hcnt hle hcrc => ?_⟩
  refine ⟨valueCells (registerValues region (cnt.toNat / 2)), ?_,
    fun k => ⟨fun hk => ?_, fun hk => ?_⟩⟩
  · rw [exec_dec_of_region hlen hfit h hcnt hle,
      if_neg (not_not.2 (show crc16 region = lowFirst lo hi from hcrc)), completeDec_eq]
    simp only [Decoded.code, Decoded.nval, Decoded.cells, registerValues_length, valueCount]
  · have h3 : 2 * k.val + 3 < region.length := by omega
    have h4 : 2 * k.val + 4 < region.length := by omega
    refine ⟨region[2 * k.val + 3], region[2 * k.val + 4], _, List.getElem?_eq_getElem h3,
      List.getElem?_eq_getElem h4, ?_, toNat_bigEndian _ _⟩
    rw [Fin.getElem_fin, valueCells_getElem, registerValues_getElem?, if_pos hk,
      List.getD_eq_getElem _ _ h3, List.getD_eq_getElem _ _ h4]
  · rw [Fin.getElem_fin, valueCells_getElem, registerValues_getElem?,
      if_neg (Nat.not_lt.2 hk)]

/-- Settles O43: DEC is refused by its length, faults when its decoding reads an unwritten cell, and on written input completes with
what the bytes alone say. -/
theorem decCommandFollowsItsRule : Obligations.DecCommandFollowsItsRule := by
  unfold Obligations.DecCommandFollowsItsRule
  refine ⟨fun _ => rfl, fun _ => exists_decode_eq_dec_iff, fun s len h => exec_dec_of_gt h,
    fun s len h5 hfit hn => exec_dec_of_not_decoded hfit fun d hd =>
      read_two_ne_none_of_decodeResponse_ok h5 hd hn,
    fun s len cnt hfit hcnt hle ⟨k, hk, hn⟩ => exec_dec_of_not_decoded hfit fun d hd =>
      read_ne_none_of_decodeResponse_ok hcnt hle hd hk hn,
    fun s len bs hfit hlen h => ?_, fun s hfit h => ?_⟩
  · refine ⟨(decodeBytes bs).code, (decodeBytes bs).nval, (decodeBytes bs).cells,
      (exec_dec_of_holdsInput hfit hlen h).trans (congrArg _ (completeDec_eq _ _)),
      decodeBytes_code bs, fun hcode => ?_, fun hcode => ?_⟩
    · rw [decodeBytes_of_code_eq_zero hcode]
      refine ⟨by rw [Decoded.nval, registerValues_length, valueCount], fun k => ?_⟩
      rw [Decoded.cells, Fin.getElem_fin, valueCells_getElem, registerValues_getElem?]
      rfl
    · obtain ⟨hnval, hcells⟩ := no_values_of_code_ne_zero hcode
      exact ⟨hnval, fun k => by simp [hcells]⟩
  · have hexec := exec_dec_of_holdsInput (len := 7) hfit rfl h
    rw [decodeBytes_example] at hexec
    exact ⟨_, hexec, rfl, rfl, rfl⟩

end Sys2Proof.Machine
end

section
/-! PROOFS. The error codes (60_exceptions.md R151): each failure of the decoder has one cause, and each code one failure (O24). -/

namespace Sys2Proof.Machine

/-! ## The cause of each failure of the decoder (R122 to R124) -/

/-- A buffer holds a response exactly when it holds the bytes its CRC is computed over and, after them, the two bytes of its CRC. -/
theorem holdsInput_append_pair {s : State} {region : List Byte} {lo hi : Byte} :
    s.HoldsInput (region ++ [lo, hi]) ↔ readInputs s 0 region.length = .ok region ∧
      s.ibuf.read region.length = some lo ∧ s.ibuf.read (region.length + 1) = some hi := by
  constructor
  · intro h
    have hlo := h region.length (by simp)
    have hhi := h (region.length + 1) (by simp)
    have hregion := holdsInput_take h region.length
    rw [List.take_left] at hregion
    exact ⟨readInputs_of_holdsInput hregion, by simpa using hlo, by simpa using hhi⟩
  · rintro ⟨hregion, hlo, hhi⟩ k hk
    rw [List.length_append, List.length_cons, List.length_singleton] at hk
    obtain hk | rfl | rfl : k < region.length ∨ k = region.length ∨ k = region.length + 1 := by
      omega
    · rw [List.getElem?_append_left hk, ← (readInputs_ok.1 hregion).2 k hk, Nat.zero_add]
    · simp [hlo]
    · simp [hhi]

/-- R122: the decoder reports SHORT_READ exactly below five bytes. -/
theorem decodeResponse_shortRead_iff {s : State} {n : Nat} :
    decodeResponse s n = .ok (.failed .shortRead) ↔ n < 5 := by
  refine ⟨fun h => ?_, decodeResponse_short⟩
  rcases decodeResponse_ok_cases h with
    ⟨h5, _⟩ | ⟨_, _, _, _, hd⟩ | ⟨_, _, _, _, _, _, _, _, _, ⟨_, hd⟩ | ⟨_, _, _, hd⟩⟩
  · exact h5
  all_goals cases hd

/-- R123: the decoder reports MALFORMED_FRAME exactly when the declared length exceeds the received one. -/
theorem decodeResponse_malformedFrame_iff {s : State} {n : Nat} :
    decodeResponse s n = .ok (.failed .malformedFrame) ↔
      5 ≤ n ∧ ∃ cnt, s.ibuf.read 2 = some cnt ∧ n < cnt.toNat + 5 := by
  refine ⟨fun h => ?_, fun ⟨h5, _, hcnt, hm⟩ => decodeResponse_malformed h5 hcnt hm⟩
  rcases decodeResponse_ok_cases h with
    ⟨_, hd⟩ | ⟨cnt, h5, hcnt, hm, _⟩ | ⟨_, _, _, _, _, _, _, _, _, ⟨_, hd⟩ | ⟨_, _, _, hd⟩⟩
  case inr.inl => exact ⟨h5, cnt, hcnt, hm⟩
  all_goals cases hd

/-- R124: the decoder reports CRC_MISMATCH exactly when the length checks pass and the CRC of the response is wrong. -/
theorem decodeResponse_crcMismatch_iff {s : State} {n : Nat} :
    decodeResponse s n = .ok (.failed .crcMismatch) ↔
      ∃ (region : List Byte) (lo hi cnt : Byte), n = region.length + 2 ∧
        s.HoldsInput (region ++ [lo, hi]) ∧ s.ibuf.read 2 = some cnt ∧ cnt.toNat + 5 ≤ n ∧
        crc16 region ≠ lowFirst lo hi := by
  constructor
  · intro h
    rcases decodeResponse_ok_cases h with
      ⟨_, hd⟩ | ⟨_, _, _, _, hd⟩ |
      ⟨cnt, region, lo, hi, hcnt, hle, hregion, hlo, hhi, ⟨hcrc, _⟩ | ⟨_, _, _, hd⟩⟩
    case inr.inr.inl =>
      have hlen : region.length = n - 2 := (readInputs_ok.1 hregion).1
      have hn : n = region.length + 2 := by omega
      subst hn
      exact ⟨region, lo, hi, cnt, rfl, holdsInput_append_pair.2 ⟨hregion, hlo, hhi⟩, hcnt, hle,
        hcrc⟩
    all_goals cases hd
  · rintro ⟨region, lo, hi, cnt, rfl, h, hcnt, hle, hcrc⟩
    obtain ⟨hregion, hlo, hhi⟩ := holdsInput_append_pair.1 h
    exact (decodeResponse_checked hcnt hle hregion hlo hhi).trans (if_pos hcrc)

/-! ## The code of each failure (R29, R151) -/

/-- R29: no two outcomes share a code. -/
theorem statusCode_inj {a b : Status} : statusCode a = statusCode b ↔ a = b := by
  cases a <;> cases b <;> decide

/-- The code of an error says what the decoding ended in, since values have the code 0x00. -/
theorem code_eq_statusCode_iff {d : Decoded} {st : Status} (hst : st ≠ .ok) :
    d.code = statusCode st ↔ d = .failed st := by
  cases d with
  | failed st' => rw [Decoded.code, statusCode_inj, Decoded.failed.injEq]
  | values vs =>
    have hne : statusCode st ≠ 0x00 := mt statusCode_eq_zero.1 hst
    exact iff_of_false hne.symm nofun

/-- R151: DEC reports the code of an error exactly when its decoding failed with that error. -/
theorem exec_dec_next_status_iff {s t : State} {len : Half} {st : Status}
    (h : exec (.dec len) s = .next t) (hst : st ≠ .ok) :
    t.res.status = some (statusCode st) ↔ decodeResponse s len.toNat = .ok (.failed st) := by
  obtain ⟨_, d, hd, rfl⟩ := execDec_next.1 h
  rw [hd, Except.ok.injEq, completeDec_eq, Option.some.injEq, code_eq_statusCode_iff hst]

/-- R85: a CRC that completes reports OK. -/
theorem exec_crc_next_status {s t : State} {len : Half} (h : exec (.crc len) s = .next t) :
    t.res.status = some 0x00 := by
  obtain ⟨_, _, _, rfl⟩ := execCrc_next.1 h
  rfl

/-- R102: an ENC that completes reports OK. -/
theorem exec_enc_next_status {s t : State} {sa fc : Byte} {start count : Half}
    (h : exec (.enc sa fc start count) s = .next t) : t.res.status = some 0x00 := by
  rw [exec_enc] at h
  cases h
  rfl

/-- Settles O24: the code of an error names the failure of the decoder, and each failure has its own cause. -/
theorem errorCodesHaveTheirCauses : Obligations.ErrorCodesHaveTheirCauses := by
  unfold Obligations.ErrorCodesHaveTheirCauses
  refine ⟨fun _ _ _ => exec_crc_next_status, fun _ _ _ _ _ _ => exec_enc_next_status,
    fun len s t h => ⟨?short, ?malformed, ?mismatch, exec_dec_next_status_only h⟩⟩
  case short => exact (exec_dec_next_status_iff h (by decide)).trans decodeResponse_shortRead_iff
  case malformed =>
    exact (exec_dec_next_status_iff h (by decide)).trans decodeResponse_malformedFrame_iff
  case mismatch =>
    exact (exec_dec_next_status_iff h (by decide)).trans decodeResponse_crcMismatch_iff

end Sys2Proof.Machine
end

section
/-! PROOFS. Reset and hazards (70_reset_and_hazards.md R171): which input a command needs, and what it does without it (O23). -/

namespace Sys2Proof.Machine

/-- Cells that are all written hold some sequence of bytes. -/
theorem exists_holdsInput_of_written {s : State} {n : Nat} (h : ∀ k < n, s.Written k) :
    ∃ bs : List Byte, bs.length = n ∧ s.HoldsInput bs := by
  cases hr : readInputs s 0 n with
  | ok bs =>
    obtain ⟨hlen, hread⟩ := readInputs_ok.1 hr
    refine ⟨bs, hlen, fun k hk => ?_⟩
    rw [← hread k (hlen ▸ hk), Nat.zero_add]
  | error f =>
    obtain ⟨_, k, hk, hn⟩ := readInputs_error.1 hr
    exact absurd (Nat.zero_add k ▸ hn) (Option.isSome_iff_ne_none.1 (h k hk))

/-- A CRC that fits completes once its input is written. -/
theorem exec_crc_next_of_inputReady {s : State} {len : Half} (hfit : len.toNat ≤ s.cfg.bufSize)
    (h : InputReady (.crc len) s) : ∃ t, exec (.crc len) s = .next t := by
  obtain ⟨bs, hlen, hbs⟩ := exists_holdsInput_of_written h
  exact ⟨_, exec_crc_of_holdsInput hfit hlen hbs⟩

/-- A DEC that fits completes once the cells of its read set are written: none for SHORT_READ, `IBUF[2]` for MALFORMED_FRAME, and
the whole response past the length checks. -/
theorem exec_dec_next_of_inputReady {s : State} {len : Half} (hfit : len.toNat ≤ s.cfg.bufSize)
    (h : InputReady (.dec len) s) : ∃ t, exec (.dec len) s = .next t := by
  obtain h5 | h5 := Nat.lt_or_ge len.toNat 5
  · exact ⟨_, exec_dec_of_decoded hfit (decodeResponse_short h5)⟩
  obtain ⟨hwritten, hall⟩ := h h5
  obtain ⟨cnt, hcnt⟩ := Option.isSome_iff_exists.1 hwritten
  obtain hm | hle := Nat.lt_or_ge len.toNat (cnt.toNat + 5)
  · exact ⟨_, exec_dec_of_decoded hfit (decodeResponse_malformed h5 hcnt hm)⟩
  · rw [hcnt, Option.getD_some] at hall
    obtain ⟨bs, hlen, hbs⟩ := exists_holdsInput_of_written (hall hle)
    exact ⟨_, exec_dec_of_holdsInput hfit hlen hbs⟩

/-- A CRC that fits faults while a cell of its input is unwritten. -/
theorem exec_crc_fault_of_not_inputReady {s : State} {len : Half}
    (hfit : len.toNat ≤ s.cfg.bufSize) (h : ¬ InputReady (.crc len) s) :
    exec (.crc len) s = .fault .unwrittenInput := by
  refine exec_crc_of_unwritten hfit ?_
  simpa [InputReady] using h

/-- A decoding that yields something has read written cells only, so its input was ready. -/
theorem inputReady_of_decodeResponse_ok {s : State} {len : Half} {d : Decoded}
    (h : decodeResponse s len.toNat = .ok d) : InputReady (.dec len) s := by
  intro h5
  obtain ⟨cnt, hcnt⟩ := Option.ne_none_iff_exists'.1 (read_two_ne_none_of_decodeResponse_ok h5 h)
  rw [State.Written, hcnt, Option.getD_some]
  exact ⟨rfl, fun hle k hk =>
    Option.isSome_iff_ne_none.2 (read_ne_none_of_decodeResponse_ok hcnt hle h hk)⟩

/-- A DEC that fits faults while a cell of its read set is unwritten. -/
theorem exec_dec_fault_of_not_inputReady {s : State} {len : Half}
    (hfit : len.toNat ≤ s.cfg.bufSize) (h : ¬ InputReady (.dec len) s) :
    exec (.dec len) s = .fault .unwrittenInput :=
  exec_dec_of_not_decoded hfit fun _ hd => h (inputReady_of_decodeResponse_ok hd)

/-- Settles O23: each command completes with the result of its written input, and a completion, conversely, has read written cells
only; ENC reads none. -/
theorem commandCompletesExactlyWhenItsInputIsWritten :
    Obligations.CommandCompletesExactlyWhenItsInputIsWritten := by
  unfold Obligations.CommandCompletesExactlyWhenItsInputIsWritten
  refine ⟨fun i s hw hready => ?completes, fun i s hw hready => ?faults,
    fun sa fc start count s => ⟨_, exec_enc s sa fc start count⟩⟩
  case completes =>
    cases i with
    | crc len => exact exec_crc_next_of_inputReady (of_decide_eq_true hw) hready
    | enc sa fc start count => exact ⟨_, exec_enc s sa fc start count⟩
    | dec len => exact exec_dec_next_of_inputReady (of_decide_eq_true hw) hready
  case faults =>
    cases i with
    | crc len => exact exec_crc_fault_of_not_inputReady (of_decide_eq_true hw) hready
    | enc sa fc start count => exact absurd trivial hready
    | dec len => exact exec_dec_fault_of_not_inputReady (of_decide_eq_true hw) hready

end Sys2Proof.Machine
end

section
/-! PROOFS. Encoding (30_encoding.md): the command words as numbers, the round trips, and what the statements of a host program
stand for (O1, O2, O5, O6). -/

namespace Sys2Proof

/-! ## Reading a field where it was placed (R61 to R63) -/

section Placed

variable {n k i m : Nat} (v : BitVec n)

/-- A field is read back from its own bits. -/
theorem extractLsb'_placed (h : k + n ≤ 64) : (v.setWidth 64 <<< k).extractLsb' k n = v := by
  refine BitVec.eq_of_getLsbD_eq fun j hj => ?_
  have hk : k + j < 64 := by omega
  have h64 : j < 64 := by omega
  simp only [BitVec.getLsbD_extractLsb', BitVec.getLsbD_shiftLeft, BitVec.getLsbD_setWidth,
    Nat.add_sub_cancel_left, Nat.not_lt.2 (Nat.le_add_right k j), hj, hk, h64, decide_true,
    decide_false, Bool.not_false, Bool.true_and]

/-- Above a field's bits it leaves zeros. -/
theorem extractLsb'_placed_above (h : k + n ≤ i) :
    (v.setWidth 64 <<< k).extractLsb' i m = 0#m := by
  refine BitVec.eq_of_getLsbD_eq fun j _ => ?_
  have hv : n ≤ i + j - k := by omega
  simp only [BitVec.getLsbD_extractLsb', BitVec.getLsbD_shiftLeft, BitVec.getLsbD_setWidth,
    BitVec.getLsbD_of_ge v _ hv, BitVec.getLsbD_zero, Bool.and_false]

/-- Below a field's bits it leaves zeros. -/
theorem extractLsb'_placed_below (h : i + m ≤ k) :
    (v.setWidth 64 <<< k).extractLsb' i m = 0#m := by
  refine BitVec.eq_of_getLsbD_eq fun j hj => ?_
  have hk : i + j < k := by omega
  simp only [BitVec.getLsbD_extractLsb', BitVec.getLsbD_shiftLeft, hk, decide_true, Bool.not_true,
    Bool.and_false, Bool.false_and, BitVec.getLsbD_zero]

end Placed

/-! ## The fields of a command's word -/

/-- The fields of a word of format L that is made of an OP and a LEN. -/
theorem fieldsL_of_parts (op : Byte) (len : Half) :
    let w : CommandWord := op.setWidth 64 <<< 0 ||| len.setWidth 64 <<< 8
    w.extractLsb' 0 8 = op ∧ w.extractLsb' 8 16 = len ∧ w.extractLsb' 24 40 = 0#40 := by
  simp (disch := omega) only [BitVec.extractLsb'_or,
    extractLsb'_placed, extractLsb'_placed_above, extractLsb'_placed_below,
    BitVec.or_zero, BitVec.zero_or, and_self]

/-- The fields of a word of format E that is made of an OP and the four operands. -/
theorem fieldsE_of_parts (op sa fc : Byte) (start count : Half) :
    let w : CommandWord := op.setWidth 64 <<< 0 ||| sa.setWidth 64 <<< 8 ||| fc.setWidth 64 <<< 16
      ||| start.setWidth 64 <<< 24 ||| count.setWidth 64 <<< 40
    w.extractLsb' 0 8 = op ∧ w.extractLsb' 8 8 = sa ∧ w.extractLsb' 16 8 = fc ∧
      w.extractLsb' 24 16 = start ∧ w.extractLsb' 40 16 = count ∧ w.extractLsb' 56 8 = 0#8 := by
  simp (disch := omega) only [BitVec.extractLsb'_or, extractLsb'_placed,
    extractLsb'_placed_above, extractLsb'_placed_below, BitVec.or_zero, BitVec.zero_or, and_self]

theorem fields_encode_crc (len : Half) : opField (encode (.crc len)) = 1#8 ∧
    lenField (encode (.crc len)) = len ∧ rsvFieldL (encode (.crc len)) = 0#40 :=
  fieldsL_of_parts 1#8 len

theorem fields_encode_dec (len : Half) : opField (encode (.dec len)) = 3#8 ∧
    lenField (encode (.dec len)) = len ∧ rsvFieldL (encode (.dec len)) = 0#40 :=
  fieldsL_of_parts 3#8 len

theorem fields_encode_enc (sa fc : Byte) (start count : Half) :
    opField (encode (.enc sa fc start count)) = 2#8 ∧
    saField (encode (.enc sa fc start count)) = sa ∧
    fcField (encode (.enc sa fc start count)) = fc ∧
    startField (encode (.enc sa fc start count)) = start ∧
    countField (encode (.enc sa fc start count)) = count ∧
    rsvFieldE (encode (.enc sa fc start count)) = 0#8 :=
  fieldsE_of_parts 2#8 sa fc start count

/-! ## The round trips -/

/-- A word decodes to a command exactly when it is that command's word: the fields cover the word. -/
theorem decode_eq_ok_iff {w : CommandWord} {i : Instr} : decode w = .ok i ↔ w = encode i := by
  cases i with
  | crc len =>
    obtain ⟨hop, hlen, hrsv⟩ := fields_encode_crc len
    rw [decode_eq_crc, eq_iff_fieldsL, hop, hlen, hrsv]
    exact ⟨fun ⟨ho, hr, hl⟩ => ⟨ho, hl.symm, hr⟩, fun ⟨ho, hl, hr⟩ => ⟨ho, hr, hl.symm⟩⟩
  | enc sa fc start count =>
    obtain ⟨hop, hsa, hfc, hstart, hcount, hrsv⟩ := fields_encode_enc sa fc start count
    rw [decode_eq_enc, eq_iff_fieldsE, hop, hsa, hfc, hstart, hcount, hrsv]
    exact ⟨fun ⟨ho, hr, hs, hf, ht, hc⟩ => ⟨ho, hs.symm, hf.symm, ht.symm, hc.symm, hr⟩,
      fun ⟨ho, hs, hf, ht, hc, hr⟩ => ⟨ho, hr, hs.symm, hf.symm, ht.symm, hc.symm⟩⟩
  | dec len =>
    obtain ⟨hop, hlen, hrsv⟩ := fields_encode_dec len
    rw [decode_eq_dec, eq_iff_fieldsL, hop, hlen, hrsv]
    exact ⟨fun ⟨ho, hr, hl⟩ => ⟨ho, hl.symm, hr⟩, fun ⟨ho, hl, hr⟩ => ⟨ho, hr, hl.symm⟩⟩

/-- Settles O1: every command is what its own word decodes to. -/
theorem decodeOfEncodeIsTheCommand : Obligations.DecodeOfEncodeIsTheCommand := by
  unfold Obligations.DecodeOfEncodeIsTheCommand
  exact fun i => decode_eq_ok_iff.2 rfl

/-- Settles O2: a word that decodes is its command's word. -/
theorem encodeOfDecodeIsTheWord : Obligations.EncodeOfDecodeIsTheWord := by
  unfold Obligations.EncodeOfDecodeIsTheWord
  exact fun w i h => (decode_eq_ok_iff.1 h).symm

/-- Settles O5: the four words are the words of the commands that the spec names. -/
theorem workedEncodingsDecode : Obligations.WorkedEncodingsDecode := by
  unfold Obligations.WorkedEncodingsDecode
  exact ⟨decode_eq_ok_iff.2 rfl, decode_eq_ok_iff.2 rfl, decode_eq_ok_iff.2 rfl,
    decode_eq_ok_iff.2 rfl⟩

end Sys2Proof

namespace Sys2Proof.Machine

/-! ## The statements of a host program (R69) -/

theorem assembleWrite_of_le {i b : Nat} (h : b ≤ 0xFF) :
    assembleWrite i b = some (.writeIbuf i (BitVec.ofNat 8 b)) := if_pos h

/-- `WRS` stands for one write per byte, at rising indices. -/
theorem assembleWrites_of_le {bs : List Nat} (h : ∀ b ∈ bs, b ≤ 0xFF) (i : Nat) :
    ∃ acts, assembleWrites i bs = some acts ∧ acts.length = bs.length ∧
      ∀ (k b : Nat), bs[k]? = some b → acts[k]? = some (HostAction.writeIbuf (i + k) (BitVec.ofNat 8 b)) := by
  induction bs generalizing i with
  | nil => exact ⟨[], rfl, rfl, nofun⟩
  | cons b bs ih =>
    obtain ⟨hb, hbs⟩ := List.forall_mem_cons.1 h
    obtain ⟨acts, hacts, hlen, hget⟩ := ih hbs (i + 1)
    refine ⟨.writeIbuf i (BitVec.ofNat 8 b) :: acts, ?_, congrArg (· + 1) hlen, fun k c hk => ?_⟩
    · change (assembleWrite i b >>= fun a => assembleWrites (i + 1) bs >>= fun rest =>
        some (a :: rest)) = _
      rw [assembleWrite_of_le hb, hacts]
      rfl
    · cases k with
      | zero =>
        cases hk
        rfl
      | succ k =>
        rw [List.getElem?_cons_succ] at hk ⊢
        rw [hget k c hk, Nat.add_right_comm, Nat.add_assoc]

/-- A number that fits a byte operand is the same number in the word. -/
theorem ofNat_byte_setWidth {n : Nat} (h : n ≤ 0xFF) :
    (BitVec.ofNat 8 n).setWidth 64 = BitVec.ofNat 64 n :=
  BitVec.setWidth_ofNat_of_le_of_lt (by decide) (Nat.lt_succ_of_le h)

/-- A number that fits a 16-bit operand is the same number in the word. -/
theorem ofNat_half_setWidth {n : Nat} (h : n ≤ 0xFFFF) :
    (BitVec.ofNat 16 n).setWidth 64 = BitVec.ofNat 64 n :=
  BitVec.setWidth_ofNat_of_le_of_lt (by decide) (Nat.lt_succ_of_le h)

theorem assemble_crc_of_le {len : Nat} (h : len ≤ 0xFFFF) :
    (Stmt.crc len).assemble = some [.issue (0x01#64 ||| BitVec.ofNat 64 len <<< 8)] := by
  rw [← ofNat_half_setWidth h]
  exact if_pos h

theorem assemble_dec_of_le {len : Nat} (h : len ≤ 0xFFFF) :
    (Stmt.dec len).assemble = some [.issue (0x03#64 ||| BitVec.ofNat 64 len <<< 8)] := by
  rw [← ofNat_half_setWidth h]
  exact if_pos h

theorem assemble_enc_of_le {sa fc start count : Nat} (hsa : sa ≤ 0xFF) (hfc : fc ≤ 0xFF)
    (hstart : start ≤ 0xFFFF) (hcount : count ≤ 0xFFFF) : (Stmt.enc sa fc start count).assemble =
      some [.issue (0x02#64 ||| BitVec.ofNat 64 sa <<< 8 ||| BitVec.ofNat 64 fc <<< 16 |||
        BitVec.ofNat 64 start <<< 24 ||| BitVec.ofNat 64 count <<< 40)] := by
  rw [← ofNat_byte_setWidth hsa, ← ofNat_byte_setWidth hfc, ← ofNat_half_setWidth hstart,
    ← ofNat_half_setWidth hcount]
  exact if_pos ⟨hsa, hfc, hstart, hcount⟩

theorem assemble_rd {F : CellName} {c : ResultCell} (h : F.resolve = some c) :
    (Stmt.rd F).assemble = some [.readResult c] :=
  congrArg (Option.map fun c => [HostAction.readResult c]) h

/-- Settles O6: within their ranges the numbers of a statement are the numbers of the word, past them there is no move, and `WRS`
unfolds byte by byte. -/
theorem statementsStandForHostMoves : Obligations.StatementsStandForHostMoves := by
  unfold Obligations.StatementsStandForHostMoves
  refine ⟨fun _ => assemble_crc_of_le, fun _ => assemble_dec_of_le,
    fun _ _ _ _ => assemble_enc_of_le,
    fun len h => ⟨if_neg (Nat.not_le.2 h), if_neg (Nat.not_le.2 h)⟩,
    fun sa fc start count h => if_neg fun ⟨hsa, hfc, hstart, hcount⟩ => ?past,
    fun i b h => congrArg (Option.map ([·])) (assembleWrite_of_le h),
    fun i b0 bs h => assembleWrites_of_le h i,
    assemble_rd rfl, assemble_rd rfl, assemble_rd rfl, fun k => assemble_rd (dif_pos k.isLt),
    fun k => assemble_rd (dif_pos k.isLt)⟩
  case past => omega

end Sys2Proof.Machine
end

section
/-! PROOFS. Steps (10_state.md, 20_memory.md sections 3 and 4): what a step performs, the host's accesses, and the order of writes over
a run (O7, O8, O12, O18 to O20). -/

namespace Sys2Proof.Machine

/-! ## Which move a step makes (R25, R33) -/

theorem step_of_script {s : State} {a : HostAction} {rest : List HostAction} (hc : s.cmd = none)
    (hs : s.host.script = a :: rest) : step s = perform a (s.setScript rest) := by
  simp only [step, hc, hs]

theorem step_of_idle {s : State} (hc : s.cmd = none) (hs : s.host.script = []) :
    step s = .next s := by
  simp only [step, hc, hs]

/-- A word that the host issues is executed in the same step. -/
theorem perform_issue_of_decode_ok {s : State} {w : CommandWord} {i : Instr}
    (hd : decode w = .ok i) : perform (.issue w) s = exec i (s.setCmd (some w)) := by
  change runCommand w (s.setCmd (some w)) = _
  rw [runCommand, hd]

/-- Settles O7: the word in CMD is decoded and executed; a word being issued is put there first. -/
theorem stepRunsTheDecodedCommand : Obligations.StepRunsTheDecodedCommand := by
  unfold Obligations.StepRunsTheDecodedCommand
  refine ⟨fun s w i => step_of_decode_ok, fun s w i rest hc hs hd => ?_⟩
  rw [step_of_script hc hs, perform_issue_of_decode_ok hd]
  rfl

/-- Settles O8: with no command in flight, a step is decided by the host's list of moves. -/
theorem stepMakesTheHostsNextMove : Obligations.StepMakesTheHostsNextMove := by
  unfold Obligations.StepMakesTheHostsNextMove
  exact ⟨fun s a rest => step_of_script, fun s => step_of_idle⟩

/-! ## What a command leaves unchanged -/

/-- Settles O20: a command that completes is one completion, which writes CMD and the result record only. -/
theorem commandsChangeOnlyTheResultRecord : Obligations.CommandsChangeOnlyTheResultRecord := by
  unfold Obligations.CommandsChangeOnlyTheResultRecord
  intro i s t h
  obtain ⟨st, own, rfl⟩ := exec_next_complete h
  exact ⟨rfl, fun _ => rfl, rfl, rfl, rfl⟩

/-- A move of the host, with no command in flight, leaves no command in flight and the host's list of moves as it was. -/
theorem perform_next_cmd_script {a : HostAction} {s t : State} (hc : s.cmd = none)
    (h : perform a s = .next t) : t.cmd = none ∧ t.host.script = s.host.script := by
  rcases perform_next_cases h with
    ⟨_, _, _, _, rfl⟩ | ⟨_, _, _, _, _, rfl⟩ | ⟨w, i, _, _, he⟩ | ⟨_, _, _, _, rfl⟩
  · exact ⟨hc, rfl⟩
  · exact ⟨hc, rfl⟩
  · obtain ⟨_, _, _, hhost, hcmd⟩ := commandsChangeOnlyTheResultRecord i _ t he
    exact ⟨hcmd, congrArg HostAgent.script hhost⟩
  · exact ⟨hc, rfl⟩

/-- Settles O12: a command ends within its step, and the host's other moves do not write CMD. -/
theorem noCommandIsInFlightAfterAStep : Obligations.NoCommandIsInFlightAfterAStep := by
  unfold Obligations.NoCommandIsInFlightAfterAStep
  intro s t h
  rcases step_next_cases h with ⟨_, i, _, _, he⟩ | ⟨hc, _, rfl⟩ | ⟨a, rest, hc, _, hp⟩
  · obtain ⟨_, _, _, _, hcmd⟩ := commandsChangeOnlyTheResultRecord i s t he
    exact hcmd
  · exact hc
  · exact (perform_next_cmd_script (s := s.setScript rest) hc hp).1

/-! ## Host accesses (20_memory.md section 3) -/

/-- Settles O18: an access by the host changes its own list or IBUF only, so the cell that a read returned is still there to be read. -/
theorem hostAccessesHaveNoSideEffects : Obligations.HostAccessesHaveNoSideEffects := by
  unfold Obligations.HostAccessesHaveNoSideEffects
  refine ⟨fun s t i h => ?ibuf, fun s t F h => ?result, fun s t i b h => ?write⟩
  case ibuf =>
    obtain ⟨hi, b, hb, rfl⟩ := hostReadIbuf_next.1 h
    exact ⟨b, rfl, hostReadIbuf_next.2 ⟨hi, b, hb, rfl⟩⟩
  case result =>
    obtain ⟨v, hv, rfl⟩ := hostReadResult_next.1 h
    refine ⟨v, rfl, hostReadResult_next.2 ⟨v, hv, rfl⟩, ?_⟩
    cases F <;> obtain ⟨x, _, hx⟩ := Option.map_eq_some_iff.1 hv <;> exact ⟨x, hx.symm⟩
  case write =>
    obtain ⟨_, rfl⟩ := hostWriteIbuf_next.1 h
    exact ⟨rfl, rfl, rfl, rfl⟩

/-! ## Runs of the host's moves (20_memory.md section 4) -/

/-- A run that gets through `k + 1` steps gets through the first one and the other `k`. -/
theorem run_succ_next {M : Host.Core} {s t : M.State} {k : Nat} (h : M.run (k + 1) s = .next t) :
    ∃ u, M.step s = .next u ∧ M.run k u = .next t := by
  rw [Host.Core.run] at h
  cases hstep : M.step s with
  | next u => exact ⟨u, rfl, by rwa [hstep] at h⟩
  | fault f =>
    rw [hstep] at h
    cases h
  | refused r =>
    rw [hstep] at h
    cases h

/-- The latest write among a move and those after it: the move counts first. -/
theorem latestWrite_cons (i : Nat) (before : Option Byte) (a : HostAction)
    (acts : List HostAction) :
    latestWrite i before (a :: acts) = latestWrite i (latestWrite i before [a]) acts := by
  cases a <;> rfl

/-- One move of the host leaves in each cell what the move wrote there, or what it held. -/
theorem perform_next_read {a : HostAction} {s t : State} (h : perform a s = .next t) (i : Nat) :
    t.ibuf.read i = latestWrite i (s.ibuf.read i) [a] := by
  rcases perform_next_cases h with
    ⟨j, b, rfl, _, rfl⟩ | ⟨_, _, rfl, _, _, rfl⟩ | ⟨_, _, rfl, _, he⟩ | ⟨_, _, rfl, _, rfl⟩
  · change _ = if j = i then some b else s.ibuf.read i
    rw [State.setIbuf_ibuf, Memory.read_write]
    simp only [eq_comm]
  · rfl
  · rw [exec_next_ibuf he]
    rfl
  · rfl

/-- A move of the host that is no command leaves the result record as it was. -/
theorem perform_next_res {a : HostAction} {s t : State} (h : perform a s = .next t)
    (ha : ∀ w, a ≠ .issue w) : t.res = s.res := by
  rcases perform_next_cases h with
    ⟨_, _, _, _, rfl⟩ | ⟨_, _, _, _, _, rfl⟩ | ⟨w, _, hw, _, _⟩ | ⟨_, _, _, _, rfl⟩
  · rfl
  · rfl
  · exact absurd hw (ha w)
  · rfl

/-- Settles O19, by induction on the number of steps: each step makes the head of the host's moves and leaves the rest. -/
theorem cellsHoldTheLatestWrite : Obligations.CellsHoldTheLatestWrite := by
  unfold Obligations.CellsHoldTheLatestWrite
  intro s t k
  induction k generalizing s with
  | zero =>
    intro _ h
    cases h
    exact ⟨fun _ => rfl, fun _ => rfl⟩
  | succ k ih =>
    intro hc h
    obtain ⟨(u : State), (hstep : step s = .next u), hrun⟩ := run_succ_next h
    obtain ⟨hcells, hres⟩ := ih u (noCommandIsInFlightAfterAStep s u hstep) hrun
    cases hs : s.host.script with
    | nil =>
      rw [step_of_idle hc hs] at hstep
      cases hstep
      simp only [hs, List.take_nil] at hcells hres ⊢
      exact ⟨hcells, hres⟩
    | cons a rest =>
      rw [step_of_script hc hs] at hstep
      have hscript : u.host.script = rest :=
        (perform_next_cmd_script (s := s.setScript rest) hc hstep).2
      rw [hscript] at hcells hres
      simp only [List.take_succ_cons, List.mem_cons, not_or]
      refine ⟨fun i => ?_, fun hno => ?_⟩
      · rw [latestWrite_cons, hcells i, perform_next_read hstep, State.setScript_ibuf]
      · rw [hres fun w => (hno w).2, perform_next_res hstep fun w => Ne.symm (hno w).1,
          State.setScript_res]

end Sys2Proof.Machine
end

section
/-! PROOFS. Refusals and faults (60_exceptions.md section 2): which steps stop, for which reason, and the marks that stay
(O10, O11). -/

namespace Sys2Proof.Machine

/-! ## The word or the access of a step -/

/-- Everything a step can be: a command on this block and buffer, an access by the host, or nothing. -/
theorem step_cases (s : State) :
    (∃ w u, s.nextCommand = some w ∧ s.nextAccess = none ∧ u.cfg = s.cfg ∧ u.ibuf = s.ibuf ∧
      step s = runCommand w u) ∨
    (∃ a rest, s.nextCommand = none ∧ s.nextAccess = some a ∧ (∀ w, a ≠ .issue w) ∧
      step s = perform a (s.setScript rest)) ∨
    (s.nextCommand = none ∧ s.nextAccess = none ∧ step s = .next s) := by
  cases hc : s.cmd with
  | some w =>
    refine .inl ⟨w, s, ?_, ?_, rfl, rfl, ?_⟩
    · simp [State.nextCommand, hc]
    · simp [State.nextAccess, hc]
    · simp [step, hc]
  | none =>
    cases hs : s.host.script with
    | nil =>
      refine .inr (.inr ⟨?_, ?_, step_of_idle hc hs⟩)
      · simp [State.nextCommand, hc, hs]
      · simp [State.nextAccess, hc, hs]
    | cons a rest =>
      have hstep := step_of_script hc hs
      by_cases ha : ∃ w, a = .issue w
      · obtain ⟨w, rfl⟩ := ha
        refine .inl ⟨w, (s.setScript rest).setCmd (some w), ?_, ?_, rfl, rfl, hstep⟩
        · simp [State.nextCommand, hc, hs]
        · simp [State.nextAccess, hc, hs]
      · have hne (w : CommandWord) : a ≠ .issue w := fun h => ha ⟨w, h⟩
        refine .inr (.inl ⟨a, rest, ?_, ?_, hne, hstep⟩)
        · simp [State.nextCommand, hc, hs, hne]
        · simp [State.nextAccess, hc, hs]

/-! ## Refusals (R155) -/

/-- R68: a command word is refused by the decoder, or by the length of its command. -/
theorem runCommand_refused {w : CommandWord} {s : State} {r : Refusal} :
    runCommand w s = .refused r ↔
      (decode w = .error .reservedOpcode ∧ r = .reservedOpcode) ∨
      (decode w = .error .reservedBitsSet ∧ r = .reservedBitsSet) ∨
      ∃ i, decode w = .ok i ∧ i.wellFormed s.cfg = false ∧ r = .lenExceedsBuffer := by
  unfold runCommand
  cases decode w with
  | ok i =>
    simp only [exec_refused, reduceCtorEq, false_and, Except.ok.injEq, exists_eq_left', false_or]
  | error e =>
    cases e <;>
      simp only [refusalOf, Host.Outcome.refused.injEq, Except.error.injEq, reduceCtorEq,
        @eq_comm _ r, false_and, true_and, exists_false, or_false, false_or]

/-- R65, over the numbers. -/
theorem decode_reservedOpcode_iff_number {w : CommandWord} :
    decode w = .error .reservedOpcode ↔ w.toNat % 2 ^ 8 ∉ [0x01, 0x02, 0x03] := by
  simp (disch := decide) only [decode_reservedOpcode, List.mem_cons, List.not_mem_nil, or_false,
    opNumber_eq_iff, not_or, ne_eq]

/-- R66, over the numbers. -/
theorem decode_reservedBitsSet_iff_number {w : CommandWord} :
    decode w = .error .reservedBitsSet ↔
      (w.toNat % 2 ^ 8 ∈ [0x01, 0x03] ∧ w.toNat / 2 ^ 24 ≠ 0) ∨
      (w.toNat % 2 ^ 8 = 0x02 ∧ w.toNat / 2 ^ 56 ≠ 0) := by
  simp (disch := decide) only [decode_reservedBitsSet, List.mem_cons, List.not_mem_nil, or_false,
    opNumber_eq_iff, rsvNumberL_eq_zero_iff, rsvNumberE_eq_zero_iff, ne_eq]

theorem hostWriteIbuf_refused {i : Nat} {b : Byte} {s : State} {r : Refusal} :
    hostWriteIbuf i b s = .refused r ↔ s.cfg.bufSize ≤ i ∧ r = .ibufIndexOutOfRange := by
  unfold hostWriteIbuf
  split
  case isTrue h => simp [h, eq_comm]
  case isFalse h => simp [h]

theorem hostReadIbuf_refused {i : Nat} {s : State} {r : Refusal} :
    hostReadIbuf i s = .refused r ↔ s.cfg.bufSize ≤ i ∧ r = .ibufIndexOutOfRange := by
  unfold hostReadIbuf
  split
  case isTrue h => simp [h, eq_comm]
  case isFalse h => simp [h]

theorem hostReadResult_ne_refused {F : ResultCell} {s : State} {r : Refusal} :
    hostReadResult F s ≠ .refused r := by
  unfold hostReadResult
  cases s.res.read F <;> simp

/-- R24: an access by the host is refused for its index into IBUF only. -/
theorem perform_refused {a : HostAction} {s : State} {r : Refusal} (ha : ∀ w, a ≠ .issue w) :
    perform a s = .refused r ↔
      ∃ i, (a = .readIbuf i ∨ ∃ b, a = .writeIbuf i b) ∧ s.cfg.bufSize ≤ i ∧
        r = .ibufIndexOutOfRange := by
  cases a with
  | writeIbuf i b =>
    change hostWriteIbuf i b s = _ ↔ _
    simp only [hostWriteIbuf_refused, reduceCtorEq, HostAction.writeIbuf.injEq, exists_and_left,
      exists_eq', and_true, false_or, exists_eq_left']
  | readIbuf i =>
    change hostReadIbuf i s = _ ↔ _
    simp only [hostReadIbuf_refused, HostAction.readIbuf.injEq, reduceCtorEq, exists_false, or_false,
      exists_eq_left']
  | issue w => exact absurd rfl (ha w)
  | readResult F =>
    change hostReadResult F s = _ ↔ _
    simp only [hostReadResult_ne_refused, reduceCtorEq, exists_false, or_self, false_and]

/-! ## Faults (R156) -/

/-- R171: a command faults exactly when it fits and its input is not written. -/
theorem exec_fault {i : Instr} {s : State} {f : Fault} : exec i s = .fault f ↔
    i.wellFormed s.cfg = true ∧ ¬ InputReady i s ∧ f = .unwrittenInput := by
  obtain ⟨hcompletes, hfaults, _⟩ := commandCompletesExactlyWhenItsInputIsWritten
  cases hw : i.wellFormed s.cfg with
  | false => simp [exec_refused.2 ⟨hw, rfl⟩]
  | true =>
    by_cases hready : InputReady i s
    · obtain ⟨t, ht⟩ := hcompletes i s hw hready
      simp [ht, hready]
    · simp [hfaults i s hw hready, hready, eq_comm]

theorem runCommand_fault {w : CommandWord} {s : State} {f : Fault} :
    runCommand w s = .fault f ↔ ∃ i, decode w = .ok i ∧ i.wellFormed s.cfg = true ∧
      ¬ InputReady i s ∧ f = .unwrittenInput := by
  unfold runCommand
  cases decode w with
  | ok i => simp only [exec_fault, Except.ok.injEq, exists_eq_left']
  | error e => simp only [reduceCtorEq, false_and, exists_false]

/-- Whether a command's input is written depends on IBUF alone. -/
theorem inputReady_congr {i : Instr} {s u : State} (h : u.ibuf = s.ibuf) :
    InputReady i u ↔ InputReady i s := by
  obtain ⟨_, _, _, _, _⟩ := s
  obtain ⟨_, _, _, _, _⟩ := u
  cases h
  cases i <;> rfl

theorem hostReadIbuf_fault {i : Nat} {s : State} {f : Fault} : hostReadIbuf i s = .fault f ↔
    i < s.cfg.bufSize ∧ s.ibuf.read i = none ∧ f = .unwrittenInput := by
  unfold hostReadIbuf
  split
  case isTrue h => simp [Nat.not_lt.2 h]
  case isFalse h => simp [afterReads_fault, readInput_error, Nat.not_le.1 h, and_comm]

theorem hostWriteIbuf_ne_fault {i : Nat} {b : Byte} {s : State} {f : Fault} :
    hostWriteIbuf i b s ≠ .fault f := by
  unfold hostWriteIbuf
  split <;> simp

/-- R24, R28: an access by the host faults when it reads a cell that holds no value. -/
theorem perform_fault {a : HostAction} {s : State} {f : Fault} (ha : ∀ w, a ≠ .issue w) :
    perform a s = .fault f ↔
      (∃ i, a = .readIbuf i ∧ i < s.cfg.bufSize ∧ s.ibuf.read i = none ∧ f = .unwrittenInput) ∨
      (∃ F, a = .readResult F ∧ s.res.read F = none ∧ f = .unwrittenResult) := by
  cases a with
  | writeIbuf i b =>
    change hostWriteIbuf i b s = _ ↔ _
    simp only [hostWriteIbuf_ne_fault, reduceCtorEq, false_and, exists_false, or_self]
  | readIbuf i =>
    change hostReadIbuf i s = _ ↔ _
    simp only [hostReadIbuf_fault, HostAction.readIbuf.injEq, exists_eq_left', reduceCtorEq,
      false_and, exists_false, or_false]
  | issue w => exact absurd rfl (ha w)
  | readResult F =>
    change hostReadResult F s = _ ↔ _
    simp only [hostReadResult_fault, and_comm, HostAction.readResult.injEq, exists_eq_left',
      reduceCtorEq, false_and, exists_false, false_or]

/-- Everything a step can fault with, and when. -/
theorem step_fault {s : State} {f : Fault} : step s = .fault f ↔
    (∃ w i, s.nextCommand = some w ∧ decode w = .ok i ∧ i.wellFormed s.cfg = true ∧
      ¬ InputReady i s ∧ f = .unwrittenInput) ∨
    (∃ i, s.nextAccess = some (.readIbuf i) ∧ i < s.cfg.bufSize ∧ s.ibuf.read i = none ∧
      f = .unwrittenInput) ∨
    (∃ F, s.nextAccess = some (.readResult F) ∧ s.res.read F = none ∧ f = .unwrittenResult) := by
  rcases step_cases s with
    ⟨w, u, hw, ha, hcfg, hibuf, hstep⟩ | ⟨a, rest, hw, ha, hne, hstep⟩ | ⟨hw, ha, hstep⟩
  · simp only [hstep, hw, ha, runCommand_fault, inputReady_congr hibuf, hcfg, Option.some.injEq,
      exists_and_left, exists_eq_left', reduceCtorEq, false_and, exists_false, or_false]
  · simp only [hstep, hw, ha, perform_fault hne, State.setScript_cfg, State.setScript_ibuf,
      State.setScript_res, Option.some.injEq, reduceCtorEq, false_and, exists_false, false_or]
  · simp only [hstep, hw, ha, reduceCtorEq, false_and, exists_false, or_self]

/-! ## The marks (R155, R156) -/

@[simp] theorem State.dropMove_ibuf (s : State) : s.dropMove.ibuf = s.ibuf := by
  obtain ⟨_, _, cmd, _, _⟩ := s
  cases cmd <;> rfl

@[simp] theorem State.dropMove_res (s : State) : s.dropMove.res = s.res := by
  obtain ⟨_, _, cmd, _, _⟩ := s
  cases cmd <;> rfl

@[simp] theorem State.dropMove_cfg (s : State) : s.dropMove.cfg = s.cfg := by
  obtain ⟨_, _, cmd, _, _⟩ := s
  cases cmd <;> rfl

/-- The first reason is kept. -/
theorem keepMark_eq {α : Type} (mark : Option α) (reason : α) :
    keepMark mark reason = some (mark.getD reason) := by
  cases mark <;> rfl

theorem advance_of_refused {m : Marked} {r : Refusal} (h : step m.state = .refused r) :
    m.advance =
      { m with state := m.state.dropMove, refusal := some (m.refusal.getD r) } := by
  delta Marked.advance
  simp only [h, keepMark_eq]

theorem advance_of_fault {m : Marked} {f : Fault} (h : step m.state = .fault f) :
    m.advance = { m with state := m.state.dropMove, fault := some (m.fault.getD f) } := by
  delta Marked.advance
  simp only [h, keepMark_eq]

theorem advance_of_next {m : Marked} {t : State} (h : step m.state = .next t) :
    m.advance = { m with state := t } := by
  delta Marked.advance
  simp only [h]

/-- A step does not clear the marks, and does not change one that is set. -/
theorem advance_keeps_marks (m : Marked) :
    (∀ r, m.refusal = some r → m.advance.refusal = some r) ∧
    (∀ f, m.fault = some f → m.advance.fault = some f) := by
  cases h : step m.state with
  | next t => simp [advance_of_next h]
  | refused r => simp +contextual [advance_of_refused h]
  | fault f => simp +contextual [advance_of_fault h]

/-- What every step of a marked state keeps, every run keeps. -/
theorem advances_induction {P : Marked → Prop} (hstep : ∀ m, P m → P m.advance) {m : Marked}
    (h : P m) (k : Nat) : P (m.advances k) := by
  induction k generalizing m with
  | zero => exact h
  | succ k ih => exact ih (hstep m h)

/-- R156: a faulted state is never final. -/
theorem final_of_fault {m : Marked} {f : Fault} (h : m.fault = some f) : m.final = false := by
  simp [Marked.final, h]

/-- Settles O10: a command is refused by the decoder or its length, an access by its index; the refusal drops the move, and each later
step keeps the mark. -/
theorem refusedStepSetsTheMarkOnly : Obligations.RefusedStepSetsTheMarkOnly := by
  unfold Obligations.RefusedStepSetsTheMarkOnly
  refine ⟨fun s r => ?which, fun m r h => ?once, fun m r k h => ?stays⟩
  case which =>
    simp only [← decode_reservedOpcode_iff_number, ← decode_reservedBitsSet_iff_number]
    rcases step_cases s with
      ⟨w, u, hw, ha, hcfg, _, hstep⟩ | ⟨a, rest, hw, ha, hne, hstep⟩ | ⟨hw, ha, hstep⟩
    · simp only [hstep, hw, ha, runCommand_refused, hcfg, Option.some.injEq, exists_eq_left',
        reduceCtorEq, exists_false, or_self, false_and, or_false]
    · simp only [hstep, hw, ha, perform_refused hne, State.setScript_cfg, Option.some.injEq,
        reduceCtorEq, false_and, exists_false, false_or]
    · simp only [hstep, hw, ha, reduceCtorEq, exists_false, or_self, false_and]
  case once => simp [advance_of_refused h]
  case stays =>
    exact advances_induction (P := fun m => m.refusal = some r)
      (fun m => (advance_keeps_marks m).1 r) h k

/-- Settles O11: each fault is a read of a cell with no value, by a command or by the host; the fault drops the move, and each later
step keeps the mark. -/
theorem faultingStepSetsTheMarkOnly : Obligations.FaultingStepSetsTheMarkOnly := by
  unfold Obligations.FaultingStepSetsTheMarkOnly
  refine ⟨fun s => ?result, fun s => ?input, fun m f h => ?once, fun m f k h => ?stays⟩
  case result =>
    simp only [step_fault, reduceCtorEq, and_false, exists_false, and_true, false_or]
  case input =>
    simp only [step_fault, reduceCtorEq, and_false, exists_false, and_true, or_false]
  case once => simp [advance_of_fault h]
  case stays =>
    have hmark := advances_induction (P := fun m => m.fault = some f)
      (fun m => (advance_keeps_marks m).2 f) h k
    exact ⟨hmark, final_of_fault hmark⟩

end Sys2Proof.Machine
end

section
/-! PROOFS. Reset and the invariant (10_state.md sections 3, 5 and 8; 70_reset_and_hazards.md sections 1 and 2): the blank state, and what
every step keeps (O13 to O15). -/

namespace Sys2Proof.Machine

/-! ## Reset (R34, R170) -/

/-- Settles O13: reset leaves the empty buffer and the blank record, and the three commands need no written cell. -/
theorem resetLeavesNoValueAnywhere : Obligations.ResetLeavesNoValueAnywhere := by
  unfold Obligations.ResetLeavesNoValueAnywhere
  refine ⟨fun c => ⟨rfl, rfl, Memory.read_nil, ResultRecord.blank_read⟩,
    fun s => ⟨rfl, rfl, Memory.read_nil, ResultRecord.blank_read⟩, ⟨.atReset, rfl⟩,
    fun c sa fc start count => ⟨?crc, ⟨_, exec_enc _ sa fc start count⟩, ?dec⟩⟩
  case crc => exact ⟨_, exec_crc_of_holdsInput (bs := []) (Nat.zero_le _) rfl nofun⟩
  case dec => exact ⟨_, shortResponseIsAShortRead _ 0 (by decide)⟩

/-! ## Which records are legal (R26 to R29) -/

theorem blank_frame_getElem (k : Fin 8) : ResultRecord.blank.frame[k] = none :=
  Vector.getElem_replicate k.isLt

theorem blank_val_getElem (k : Fin 127) : ResultRecord.blank.val[k] = none :=
  Vector.getElem_replicate k.isLt

/-- R34: a record that holds no value is legal. -/
theorem legal_blank : ResultRecord.blank.Legal where
  status_known := .head _
  values_need_ok _ := ⟨rfl, blank_frame_getElem, rfl⟩
  one_result := nofun
  values_counted := nofun
  no_values _ := blank_val_getElem

/-- R85: the record that CRC leaves is legal. -/
theorem legal_crc (crc : Half) : ({ ResultRecord.blank with
    status := some 0x00, crcOut := some crc } : ResultRecord).Legal where
  status_known := .tail _ (.head _)
  values_need_ok h := absurd rfl h
  one_result _ := .inl ⟨rfl, blank_frame_getElem, rfl⟩
  values_counted := nofun
  no_values _ := blank_val_getElem

/-- R102: the record that ENC leaves is legal. -/
theorem legal_enc (f : Vector Byte 8) : ({ ResultRecord.blank with
    status := some 0x00, frame := frameCells f } : ResultRecord).Legal where
  status_known := .tail _ (.head _)
  values_need_ok h := absurd rfl h
  one_result _ := .inr (.inl ⟨rfl, fun k => by
    rw [Fin.getElem_fin, frameCells_getElem, Option.isSome_some], rfl⟩)
  values_counted := nofun
  no_values _ := blank_val_getElem

/-- R128: the record that DEC leaves with an error code is legal. -/
theorem legal_failed {st : Status} (hst : st ≠ .ok) : ({ ResultRecord.blank with
    status := some (statusCode st) } : ResultRecord).Legal where
  status_known := by
    cases st with
    | ok => exact absurd rfl hst
    | shortRead => exact .tail _ (.tail _ (.head _))
    | malformedFrame => exact .tail _ (.tail _ (.tail _ (.head _)))
    | crcMismatch => exact .tail _ (.tail _ (.tail _ (.tail _ (.head _))))
  values_need_ok _ := ⟨rfl, blank_frame_getElem, rfl⟩
  one_result h := absurd (statusCode_eq_zero.1 (Option.some.inj h)) hst
  values_counted := nofun
  no_values _ := blank_val_getElem

/-- R128: the record that DEC leaves with OK is legal, since a response has at most 127 values. -/
theorem legal_values {vs : List Half} (hvs : vs.length ≤ 127) : ({ ResultRecord.blank with
    status := some 0x00
    nval := some (BitVec.ofNat 8 vs.length)
    val := valueCells vs } : ResultRecord).Legal where
  status_known := .tail _ (.head _)
  values_need_ok h := absurd rfl h
  one_result _ := .inr (.inr ⟨rfl, blank_frame_getElem, rfl⟩)
  values_counted := by
    rintro n hn
    cases hn
    have hmod : (BitVec.ofNat 8 vs.length).toNat = vs.length := by
      rw [BitVec.toNat_ofNat, Nat.mod_eq_of_lt (by omega)]
    refine ⟨hmod.trans_le hvs, fun k => ?_⟩
    rw [hmod, Fin.getElem_fin, valueCells_getElem, Bool.eq_iff_iff, isSome_getElem?,
      decide_eq_true_iff]
  no_values := nofun

/-- Every command that completes leaves a legal record. -/
theorem exec_next_legal {i : Instr} {s t : State} (h : exec i s = .next t) : t.res.Legal := by
  rcases exec_next_cases h with ⟨_, bs, _, _, _, rfl⟩ | ⟨_, _, _, _, _, rfl⟩ | ⟨_, d, _, _, hd, rfl⟩
  · exact legal_crc (crc16 bs)
  · exact legal_enc _
  · cases d with
    | failed st => exact legal_failed (decodeResponse_failed_ne_ok hd)
    | values vs => exact legal_values (decodeResponse_values_length hd)

/-! ## The invariant -/

/-- Settles O14: reset leaves the empty buffer and the blank record. -/
theorem invariantHoldsAtReset : Obligations.InvariantHoldsAtReset := by
  unfold Obligations.InvariantHoldsAtReset
  have hreset (c : Config) : (State.resetFor c).Inv := ⟨resetFor_ibuf_wf c, nofun, legal_blank⟩
  exact ⟨hreset .atReset, hreset⟩

/-- The invariant speaks of the configuration, IBUF and the record only. -/
theorem inv_congr {s t : State} (hs : s.Inv) (hcfg : t.cfg = s.cfg) (hibuf : t.ibuf = s.ibuf)
    (hres : t.res = s.res) : t.Inv := by
  obtain ⟨hwf, hbelow, hlegal⟩ := hs
  exact ⟨hibuf ▸ hwf, by rwa [hibuf, hcfg], hres ▸ hlegal⟩

/-- A command that completes keeps the invariant. -/
theorem exec_keeps_inv {i : Instr} {s t : State} (hs : s.Inv) (h : exec i s = .next t) : t.Inv := by
  obtain ⟨hwf, hbelow, _⟩ := hs
  obtain ⟨hibuf, _, hcfg, _, _⟩ := commandsChangeOnlyTheResultRecord i s t h
  exact ⟨hibuf ▸ hwf, by rwa [hibuf, hcfg], exec_next_legal h⟩

/-- A host write within the buffer keeps the invariant. -/
theorem setIbuf_write_keeps_inv {s : State} {i : Nat} (hs : s.Inv) (hi : i < s.cfg.bufSize)
    (b : Byte) : (s.setIbuf (s.ibuf.write i b)).Inv :=
  ⟨Memory.write_wf hs.ibuf_canonical i b, Memory.write_below hs.ibuf_in_range hi b,
    hs.result_legal⟩

/-- A move of the host keeps the invariant. -/
theorem perform_keeps_inv {a : HostAction} {s t : State} (hs : s.Inv)
    (h : perform a s = .next t) : t.Inv := by
  rcases perform_next_cases h with
    ⟨i, b, _, hi, rfl⟩ | ⟨_, _, _, _, _, rfl⟩ | ⟨w, i, _, _, he⟩ | ⟨_, _, _, _, rfl⟩
  · exact setIbuf_write_keeps_inv hs hi b
  · exact inv_congr hs rfl rfl rfl
  · exact exec_keeps_inv (s := s.setCmd (some w)) (inv_congr hs rfl rfl rfl) he
  · exact inv_congr hs rfl rfl rfl

/-- Settles O15: a command leaves a legal record and IBUF as it was; a write of the host stays within the buffer and keeps the indices
rising; a read changes nothing of the block. -/
theorem everyStepKeepsTheInvariant : Obligations.EveryStepKeepsTheInvariant := by
  unfold Obligations.EveryStepKeepsTheInvariant
  intro s t hs h
  rcases step_next_cases h with ⟨_, _, _, _, he⟩ | ⟨_, _, rfl⟩ | ⟨_, rest, _, _, hp⟩
  · exact exec_keeps_inv hs he
  · exact hs
  · exact perform_keeps_inv (s := s.setScript rest) (inv_congr hs rfl rfl rfl) hp

end Sys2Proof.Machine
end

section
/-! PROOFS. Noninterference (10_state.md section 6): a command's result is a function of `BUF_SIZE`, its operands and the IBUF cells below
its length (O22). -/

namespace Sys2Proof.Machine

/-! ## Outcomes with the same result -/

/-- Both outcomes leave the same result record, or both stop for the same reason. -/
def SameResult (o p : Host.Outcome State Fault Refusal) : Prop :=
  (∃ t v, o = .next t ∧ p = .next v ∧ t.res = v.res) ∨
  (∃ f, o = .fault f ∧ p = .fault f) ∨ ∃ r, o = .refused r ∧ p = .refused r

/-! ## Reads of the same cells -/

theorem readInput_congr {s u : State} {i : Nat} (h : s.ibuf.read i = u.ibuf.read i) :
    readInput s i = readInput u i := by
  rw [readInput, readInput, h]

theorem readInputs_congr {s u : State} {i n : Nat}
    (h : ∀ k < i + n, s.ibuf.read k = u.ibuf.read k) : readInputs s i n = readInputs u i n := by
  induction n generalizing i with
  | zero => rfl
  | succ n ih =>
    rw [readInputs_succ, readInputs_succ, readInput_congr (h i (by omega)),
      ih fun k hk => h k (by omega)]

theorem readValues_congr {s u : State} {j n : Nat}
    (h : ∀ k < j + 2 * n, s.ibuf.read k = u.ibuf.read k) :
    readValues s j n = readValues u j n := by
  induction n generalizing j with
  | zero => rfl
  | succ n ih =>
    rw [readValues_succ, readValues_succ, readInput_congr (h j (by omega)),
      readInput_congr (h (j + 1) (by omega)), ih fun k hk => h k (by omega)]

/-- R127: what DEC makes of a response depends on the cells below its length only; the values lie there because the declared length
does not exceed it. -/
theorem decodeResponse_congr {s u : State} {n : Nat}
    (h : ∀ k < n, s.ibuf.read k = u.ibuf.read k) : decodeResponse s n = decodeResponse u n := by
  unfold decodeResponse
  split
  case isTrue => rfl
  case isFalse h5 =>
    rw [shortReadMin] at h5
    rw [readInput_congr (h 2 (by omega))]
    refine bind_congr fun cnt => ?_
    split
    case isTrue => rfl
    case isFalse hm =>
      rw [readInputs_congr fun k hk => h k (by omega), readInput_congr (h (n - 2) (by omega)),
        readInput_congr (h (n - 1) (by omega)),
        readValues_congr fun k hk => h k (by rw [valueCount] at hk; omega)]

/-! ## Commands on the same input -/

/-- The same reads, completed by the same rule, have the same result. -/
theorem sameResult_afterReads {α : Type} (r : Except Fault α) {go go' : α → State}
    (h : ∀ a, (go a).res = (go' a).res) : SameResult (afterReads r go) (afterReads r go') := by
  cases r with
  | ok a => exact .inl ⟨_, _, rfl, rfl, h a⟩
  | error f => exact .inr (.inl ⟨f, rfl, rfl⟩)

/-- R67: on blocks of one size a length is refused by both or by neither. -/
theorem sameResult_whenLenFits {s u : State} {len : Half}
    {go go' : Nat → Host.Outcome State Fault Refusal} (hcfg : s.cfg = u.cfg)
    (h : SameResult (go len.toNat) (go' len.toNat)) :
    SameResult (whenLenFits len s go) (whenLenFits len u go') := by
  rw [whenLenFits, whenLenFits, hcfg]
  split
  case isTrue => exact .inr (.inr ⟨_, rfl, rfl⟩)
  case isFalse => exact h

/-- The record that DEC leaves is a function of what it decoded. -/
theorem completeDec_res_congr (s u : State) (d : Decoded) :
    (completeDec s d).res = (completeDec u d).res := by
  rw [completeDec_eq, completeDec_eq]

/-- CRC and DEC read the same cells in both states and go on by the same rule; ENC reads none. -/
theorem sameResult_exec {i : Instr} {s u : State} (hcfg : s.cfg = u.cfg)
    (h : ∀ k < inputLength i, s.ibuf.read k = u.ibuf.read k) :
    SameResult (exec i s) (exec i u) := by
  cases i with
  | crc len =>
    rw [exec, exec, execCrc, execCrc]
    refine sameResult_whenLenFits hcfg ?_
    rw [readInputs_congr (u := u) fun k hk => h k (by rwa [Nat.zero_add] at hk)]
    exact sameResult_afterReads _ fun _ => rfl
  | enc sa fc start count => exact .inl ⟨_, _, exec_enc s .., exec_enc u .., rfl⟩
  | dec len =>
    rw [exec, exec, execDec, execDec]
    refine sameResult_whenLenFits hcfg ?_
    rw [decodeResponse_congr (n := len.toNat) h]
    exact sameResult_afterReads _ (completeDec_res_congr s u)

/-- Settles O22: the two runs of a command have the same result, whichever of the three outcomes it is. -/
theorem resultDependsOnlyOnTheInput : Obligations.ResultDependsOnlyOnTheInput := by
  unfold Obligations.ResultDependsOnlyOnTheInput
  exact fun i s u hcfg h => sameResult_exec hcfg h

end Sys2Proof.Machine
end

section
/-! PROOFS. Laws of the CRC and its other formulations (40_crc.md section 3): appending a sequence's own CRC, the table-driven form, and the
non-reflected form (O28 to O30). -/

namespace Sys2Proof.Machine

/-! ## The byte step by the low byte of the accumulator -/

/-- Bit steps of an accumulator whose low `n` bits are 0 only shift (R80). -/
theorem toNat_crcBits_of_mul_two_pow {n m : Nat} {acc : Half} (h : acc.toNat = m * 2 ^ n) :
    (crcBits n acc).toNat = m := by
  induction n generalizing acc with
  | zero => rw [crcBits_zero, h, Nat.pow_zero, Nat.mul_one]
  | succ n ih =>
    refine ih ?_
    rw [crcBitStep acc, h, Nat.pow_succ, ← Nat.mul_assoc, Nat.mul_mod_left,
      if_neg Nat.zero_ne_one, Nat.mul_div_cancel _ Nat.two_pos]

/-- Eight bit steps bring a high byte down (R81). -/
theorem crcBits_shiftRight_shiftLeft (acc : Half) : crcBits 8 (acc >>> 8 <<< 8) = acc >>> 8 := by
  have hlt : acc.toNat / 2 ^ 8 * 2 ^ 8 < 2 ^ 16 :=
    (Nat.div_mul_le_self _ _).trans_lt acc.isLt
  have hhigh : (acc >>> 8 <<< 8).toNat = (acc >>> 8).toNat * 2 ^ 8 := by
    rw [BitVec.toNat_shiftLeft, Nat.shiftLeft_eq, BitVec.toNat_ushiftRight,
      Nat.shiftRight_eq_div_pow, Nat.mod_eq_of_lt hlt]
  exact BitVec.eq_of_toNat_eq (toNat_crcBits_of_mul_two_pow hhigh)

/-- An accumulator without a set bit stays so. -/
theorem crcBits_zero_acc (n : Nat) : crcBits n 0#16 = 0#16 := by
  have h := crcBits_xor n 0#16 0#16
  rwa [BitVec.xor_self, BitVec.xor_self] at h

/-- The accumulator with a byte XORed in, split into its two bytes (R81). -/
theorem xor_byte_eq (acc : Half) (b : Byte) : acc ^^^ b.setWidth 16 =
    acc >>> 8 <<< 8 ^^^ (lo8 acc ^^^ b).setWidth 16 := by
  refine BitVec.eq_of_getLsbD_eq fun k hk => ?_
  obtain h8 | h8 := Nat.lt_or_ge k 8
  · simp only [BitVec.getLsbD_xor, BitVec.getLsbD_setWidth, BitVec.getLsbD_shiftLeft, lo8,
      BitVec.getLsbD_extractLsb', hk, h8, decide_true, Bool.not_true, Bool.and_false, Bool.false_and,
      Bool.true_and, Bool.false_xor, Nat.zero_add]
  · simp only [BitVec.getLsbD_xor, BitVec.getLsbD_setWidth, BitVec.getLsbD_shiftLeft,
      BitVec.getLsbD_ushiftRight, BitVec.getLsbD_of_ge _ _ h8, hk, Nat.not_lt.2 h8,
      Nat.add_sub_cancel' h8, decide_true, decide_false, Bool.not_false, Bool.and_false,
      Bool.true_and, Bool.xor_false]

/-- A byte step shifts the high byte down and divides the low byte, with the new one XORed in, by the polynomial. -/
theorem crcByte_eq (acc : Half) (b : Byte) :
    crcByte acc b = acc >>> 8 ^^^ crcBits 8 ((lo8 acc ^^^ b).setWidth 16) := by
  change crcBits 8 (acc ^^^ b.setWidth 16) = _
  rw [xor_byte_eq, crcBits_xor, crcBits_shiftRight_shiftLeft]

/-! ## Appending the CRC (laws (a) and (b)) -/

/-- A logical shift by a byte leaves the high byte. -/
theorem shiftRight_eight_eq_hi8 (acc : Half) : acc >>> 8 = (hi8 acc).setWidth 16 := by
  refine BitVec.eq_of_toNat_eq ?_
  rw [BitVec.toNat_setWidth_of_le (by decide), hi8, BitVec.extractLsb'_toNat,
    BitVec.toNat_ushiftRight, Nat.shiftRight_eq_div_pow]
  have := acc.isLt
  omega

/-- The low byte of the accumulator cancels itself, and its high byte is left. -/
theorem crcByte_lo8 (acc : Half) : crcByte acc (lo8 acc) = (hi8 acc).setWidth 16 := by
  rw [crcByte_eq, BitVec.xor_self, BitVec.setWidth_zero, crcBits_zero_acc, BitVec.xor_zero,
    shiftRight_eight_eq_hi8]

/-- A byte that is the whole accumulator cancels it. -/
theorem crcByte_setWidth (b : Byte) : crcByte (b.setWidth 16) b = 0#16 := by
  change crcBits 8 (b.setWidth 16 ^^^ b.setWidth 16) = _
  rw [BitVec.xor_self, crcBits_zero_acc]

/-- Law (a). -/
theorem crc16_append_lo8 (m : List Byte) :
    crc16 (m ++ [lo8 (crc16 m)]) = (hi8 (crc16 m)).setWidth 16 := by
  rw [crc16_append]
  exact crcByte_lo8 (crc16 m)

/-- Law (b). -/
theorem crc16_append_lo8_hi8 (m : List Byte) :
    crc16 (m ++ [lo8 (crc16 m), hi8 (crc16 m)]) = 0#16 := by
  rw [List.append_cons, crc16_append, crc16_append_lo8]
  exact crcByte_setWidth (hi8 (crc16 m))

/-- Settles O28: the first appended byte cancels the low byte of the accumulator, the second what is left. -/
theorem appendingTheCrcLeavesZero : Obligations.AppendingTheCrcLeavesZero := by
  unfold Obligations.AppendingTheCrcLeavesZero
  exact fun m => ⟨crc16_append_lo8 m, crc16_append_lo8_hi8 m⟩

/-! ## The table-driven form -/

/-- The entry of the table for a byte. -/
theorem crcTable_getD (b : Byte) : crcTable.getD b.toNat 0#16 = crcBits 8 (b.setWidth 16) := by
  rw [crcTable, List.getD_eq_getElem?_getD, List.getElem?_map, List.getElem?_range b.isLt,
    Option.map_some, Option.getD_some, BitVec.ofNat_toNat]

/-- One byte of the table-driven form is one byte step. -/
theorem crcByteByTable_eq (acc : Half) (b : Byte) : crcByteByTable acc b = crcByte acc b := by
  rw [crcByteByTable, crcTable_getD, crcByte_eq]

/-- Settles O29: the two forms agree at every byte. -/
theorem tableDrivenFormAgrees : Obligations.TableDrivenFormAgrees := by
  unfold Obligations.TableDrivenFormAgrees
  have hstep : crcByteByTable = crcByte := funext₂ crcByteByTable_eq
  exact fun bs => by rw [crc16ByTable, hstep, crc16]

/-! ## The non-reflected form -/

theorem reverse_xor (a b : Half) : (a ^^^ b).reverse = a.reverse ^^^ b.reverse := by
  refine BitVec.eq_of_getLsbD_eq fun k hk => ?_
  simp only [BitVec.getLsbD_reverse, BitVec.getLsbD_xor, BitVec.getMsbD_xor]

theorem reverse_shiftRight_one (acc : Half) : (acc >>> 1).reverse = acc.reverse <<< 1 := by
  refine BitVec.eq_of_getLsbD_eq fun k hk => ?_
  simp only [BitVec.getLsbD_reverse, BitVec.getMsbD_ushiftRight, BitVec.getLsbD_shiftLeft,
    decide_true, hk, Bool.true_and]

theorem reverse_setWidth_byte (b : Byte) :
    (b.setWidth 16).reverse = b.reverse.setWidth 16 <<< 8 := by
  refine BitVec.eq_of_getLsbD_eq fun k hk => ?_
  rw [BitVec.getLsbD_reverse, BitVec.getMsbD_setWidth, BitVec.getLsbD_shiftLeft,
    BitVec.getLsbD_setWidth, BitVec.getLsbD_reverse]
  obtain h8 | h8 := Nat.lt_or_ge k 8
  · simp only [Nat.reduceSub, Nat.reduceSubDiff, h8, Nat.not_le.2 h8, decide_true, decide_false,
      Bool.not_true, Bool.and_false, Bool.false_and]
  · simp only [Nat.reduceSub, Nat.reduceSubDiff, h8, hk, Nat.not_lt.2 h8, show k - 8 < 16 by omega,
      decide_true, decide_false, Bool.not_false, Bool.and_self, Bool.true_and]

/-- A bit step of the reversed accumulator is the reverse of a bit step: 0x8005 is 0xA001 read backwards. -/
theorem polyBit_reverse (acc : Half) : polyBit acc.reverse = (crcBit acc).reverse := by
  have hbit : acc.reverse.getLsbD 15 = acc.getLsbD 0 := BitVec.getLsbD_reverse
  have hpoly : (0xA001#16).reverse = 0x8005#16 := by decide
  rw [polyBit, hbit]
  split
  case isTrue h => rw [crcBit_odd h, reverse_xor, reverse_shiftRight_one, hpoly]
  case isFalse h => rw [crcBit_even (Bool.eq_false_iff.2 h), reverse_shiftRight_one]

theorem polyBits_reverse (n : Nat) (acc : Half) :
    polyBits n acc.reverse = (crcBits n acc).reverse := by
  induction n generalizing acc with
  | zero => rfl
  | succ n ih => rw [polyBits, polyBit_reverse, ih, crcBits_succ]

/-- A byte step of the reversed accumulator is the reverse of a byte step. -/
theorem polyByte_reverse (acc : Half) (b : Byte) :
    polyByte acc.reverse b = (crcByte acc b).reverse := by
  change polyBits 8 (acc.reverse ^^^ b.reverse.setWidth 16 <<< 8) = _
  rw [← reverse_setWidth_byte, ← reverse_xor, polyBits_reverse]
  rfl

theorem foldl_polyByte_reverse (bs : List Byte) (acc : Half) :
    bs.foldl polyByte acc.reverse = (bs.foldl crcByte acc).reverse := by
  induction bs generalizing acc with
  | nil => rfl
  | cons b bs ih => rw [List.foldl_cons, polyByte_reverse, ih, List.foldl_cons]

/-- Settles O30: the non-reflected form runs on the reversed accumulator, and its seed is its own reverse. -/
theorem nonReflectedFormAgrees : Obligations.NonReflectedFormAgrees := by
  unfold Obligations.NonReflectedFormAgrees
  intro bs
  have hseed : (0xFFFF#16).reverse = 0xFFFF#16 := by decide
  have hfold := foldl_polyByte_reverse bs 0xFFFF#16
  rw [hseed] at hfold
  rw [crc16NonReflected, hfold, BitVec.reverse_reverse_eq, crc16]

end Sys2Proof.Machine
end

section
/-! PROOFS. The laws of frames and responses: what ENC's frame determines (41_request_encoder.md section 3), and which responses DEC takes
(42_response_decoder.md sections 3 and 4) (O33 to O35, O40 to O42, O44). -/

namespace Sys2Proof.Machine

/-! ## The two bytes of a 16-bit value (R10, R44) -/

theorem toNat_lo8 (v : Half) : (lo8 v).toNat = v.toNat % 256 := by
  rw [lo8_eq_ofNat_mod, BitVec.toNat_ofNat, Nat.mod_mod]

theorem toNat_hi8 (v : Half) : (hi8 v).toNat = v.toNat / 256 := by
  rw [hi8_eq_ofNat_div, BitVec.toNat_ofNat]
  omega

/-- R44 over the numbers: the second byte lies above the bits of the first. -/
theorem toNat_lowFirst (lo hi : Byte) : (lowFirst lo hi).toNat = lo.toNat + hi.toNat * 256 := by
  have hwide (b : Byte) : (b.setWidth 16).toNat = b.toNat := BitVec.toNat_setWidth_of_le (by decide)
  have hfit : hi.toNat * 2 ^ 8 < 2 ^ 16 := by omega
  rw [lowFirst, BitVec.toNat_or, BitVec.toNat_shiftLeft, hwide, hwide, Nat.shiftLeft_eq,
    Nat.mod_eq_of_lt hfit, Nat.or_comm, Nat.mul_comm, ← Nat.two_pow_add_eq_or_of_lt lo.isLt,
    Nat.add_comm, Nat.mul_comm]

@[simp] theorem lo8_lowFirst (lo hi : Byte) : lo8 (lowFirst lo hi) = lo := by
  refine BitVec.eq_of_toNat_eq ?_
  rw [toNat_lo8, toNat_lowFirst, Nat.add_mul_mod_self_right, Nat.mod_eq_of_lt lo.isLt]

@[simp] theorem hi8_lowFirst (lo hi : Byte) : hi8 (lowFirst lo hi) = hi := by
  refine BitVec.eq_of_toNat_eq ?_
  have := lo.isLt
  rw [toNat_hi8, toNat_lowFirst]
  omega

@[simp] theorem lowFirst_lo8_hi8 (v : Half) : lowFirst (lo8 v) (hi8 v) = v := by
  refine BitVec.eq_of_toNat_eq ?_
  rw [toNat_lowFirst, toNat_lo8, toNat_hi8]
  omega

/-- A value is determined by its two bytes. -/
theorem eq_of_hi8_eq_of_lo8_eq {v w : Half} (hhi : hi8 v = hi8 w) (hlo : lo8 v = lo8 w) :
    v = w := by
  rw [← lowFirst_lo8_hi8 v, hlo, hhi, lowFirst_lo8_hi8]

/-- The byte 0x00 after another one adds nothing to the value. -/
theorem lowFirst_zero (lo : Byte) : lowFirst lo 0x00 = lo.setWidth 16 := by
  refine BitVec.eq_of_toNat_eq ?_
  rw [toNat_lowFirst, BitVec.toNat_setWidth_of_le (by decide)]
  rfl

/-! ## The request frame (41_request_encoder.md section 3) -/

/-- R102: the FRAME cells that a completed ENC leaves. -/
theorem exec_enc_next_frame {s t : State} {sa fc : Byte} {start count : Half}
    (h : exec (.enc sa fc start count) s = .next t) :
    t.res.frame = frameCells (requestFrame sa fc start count) :=
  Host.Outcome.next.inj ((exec_enc s sa fc start count).symm.trans h) ▸ rfl

/-- Settles O33: bytes 6 and 7 of the frame are the two bytes of the payload's CRC. -/
theorem frameCarriesItsOwnCrc : Obligations.FrameCarriesItsOwnCrc := by
  unfold Obligations.FrameCarriesItsOwnCrc
  intro s sa fc start count
  exact ⟨_, requestPayload sa fc start count, _, _, exec_enc s sa fc start count, rfl, rfl,
    (lowFirst_lo8_hi8 _).symm⟩

/-- Settles O34: bytes 0 to 5 of the frame are the operands' own bytes. -/
theorem distinctOperandsGiveDistinctFrames : Obligations.DistinctOperandsGiveDistinctFrames := by
  unfold Obligations.DistinctOperandsGiveDistinctFrames
  intro s t u v sa sa' fc fc' start start' count count' ht hv h
  rw [exec_enc_next_frame ht, exec_enc_next_frame hv] at h
  have hbyte (k : Fin 6) : (requestPayload sa fc start count)[k.val]? =
      (requestPayload sa' fc' start' count')[k.val]? := by
    rw [requestPayload_getElem?, requestPayload_getElem?, h]
  exact ⟨Option.some.inj (hbyte 0), Option.some.inj (hbyte 1),
    eq_of_hi8_eq_of_lo8_eq (Option.some.inj (hbyte 2)) (Option.some.inj (hbyte 3)),
    eq_of_hi8_eq_of_lo8_eq (Option.some.inj (hbyte 4)) (Option.some.inj (hbyte 5))⟩

/-! ## A request frame as a response -/

/-- A buffer that holds the cells of a frame holds its payload and its CRC. -/
theorem holdsInput_of_frame {s : State} {sa fc : Byte} {start count : Half}
    (h : ∀ k : Fin 8, s.ibuf.read k = (frameCells (requestFrame sa fc start count)).get k) :
    s.HoldsInput (requestPayload sa fc start count ++
      [lo8 (crc16 (requestPayload sa fc start count)),
       hi8 (crc16 (requestPayload sa fc start count))]) := by
  refine holdsInput_append_pair.2 ⟨readInputs_ok.2 ⟨rfl, fun k hk => ?_⟩, h 6, h 7⟩
  rw [Nat.zero_add, requestPayload_getElem? sa fc start count ⟨k, hk⟩]
  exact h ⟨k, Nat.lt_of_lt_of_le hk (Nat.le_add_right 6 2)⟩

/-- A frame whose third byte fits is a valid response: it carries its own CRC. -/
theorem exec_dec_of_frame {s : State} {sa fc : Byte} {start count : Half}
    (hfit : 8 ≤ s.cfg.bufSize) (hstart : start.toNat / 256 < 4)
    (h : ∀ k : Fin 8, s.ibuf.read k = (frameCells (requestFrame sa fc start count)).get k) :
    exec (.dec 8) s = .next (completeDec s
      (.values (registerValues (requestPayload sa fc start count) (start.toNat / 256 / 2)))) := by
  have hcnt : (hi8 start).toNat + 5 ≤ (8#16).toNat := by
    rw [toNat_hi8]
    change _ ≤ 8
    omega
  rw [exec_dec_of_region (len := 8) rfl hfit (holdsInput_of_frame h) rfl hcnt,
    if_neg (not_not.2 (lowFirst_lo8_hi8 _).symm), valueCount, toNat_hi8]

/-- With no values, no VAL cell holds one. -/
theorem valueCells_nil : valueCells [] = .replicate 127 none := by
  refine Vector.ext fun k hk => ?_
  simp

/-- Settles O35: the third byte of a frame is the high byte of START; up to 3 it fits the eight bytes, the frame is then a valid response
with `START div 512` values, and above 3 the frame is shorter than it declares. -/
theorem requestFrameDecodesAsAResponse : Obligations.RequestFrameDecodesAsAResponse := by
  unfold Obligations.RequestFrameDecodesAsAResponse
  intro u v s sa fc start count hv hfit h
  rw [exec_enc_next_frame hv] at h
  refine ⟨fun hstart => ?none, fun ⟨hlow, hstart⟩ => ?one, fun hstart => ?malformed⟩
  case none =>
    rw [exec_dec_of_frame hfit (by omega) h, Nat.div_eq_of_lt hstart, completeDec_eq]
    change Host.Outcome.next { s with cmd := none, res := { ResultRecord.blank with
      status := some 0x00, nval := some 0, val := valueCells [] } } = _
    rw [valueCells_nil]
    rfl
  case one =>
    have hcount : start.toNat / 256 / 2 = 1 := by omega
    refine ⟨valueCells [bigEndian (lo8 start) (hi8 count)], ?_, ?_, fun k hk => ?_⟩
    · rw [exec_dec_of_frame hfit hstart h, hcount, completeDec_eq]
      rfl
    · rw [valueCells_getElem, bigEndian, toNat_lo8, toNat_hi8]
      rfl
    · rw [Fin.getElem_fin, valueCells_getElem, List.getElem?_eq_none hk]
  case malformed =>
    refine truncatedResponseIsMalformed s 8 (hi8 start) (by decide) hfit (h 2) ?_
    rw [toNat_hi8]
    change 8 < _
    omega

/-! ## Truncated responses (42_response_decoder.md section 4) -/

/-- Settles O40: a response below five bytes is a short read whatever it declares, and above them the declared length decides. -/
theorem truncatedResponseNeverSucceeds : Obligations.TruncatedResponseNeverSucceeds := by
  unfold Obligations.TruncatedResponseNeverSucceeds
  intro s len hfit h
  obtain h5 | h5 := Nat.lt_or_ge len.toNat 5
  · exact ⟨_, shortResponseIsAShortRead s len h5, .inl rfl, by simp⟩
  · obtain ⟨cnt, hcnt, hlt⟩ := h.resolve_left (Nat.not_lt.2 h5)
    exact ⟨_, truncatedResponseIsMalformed s len cnt h5 hfit hcnt hlt, .inr rfl, by simp⟩

/-- Settles O44: byte 2 of an exception response is read as a byte count of 2, and the response is too short for it. -/
theorem exceptionResponseIsMalformed : Obligations.ExceptionResponseIsMalformed := by
  unfold Obligations.ExceptionResponseIsMalformed
  intro s h
  exact ⟨_, truncatedResponseIsMalformed s 5 0x02 (by decide) (five_le_bufSize s.cfg)
    (h 2 (by decide)) (by decide), rfl⟩

/-! ## Valid responses -/

/-- R122 to R128: a DEC that completes with OK has read a response whose length suffices and whose CRC is right. -/
theorem exec_dec_next_ok {s t : State} {len : Half} (h : exec (.dec len) s = .next t)
    (hst : t.res.status = some 0x00) : ∃ (region : List Byte) (lo hi cnt : Byte),
      len.toNat = region.length + 2 ∧ len.toNat ≤ s.cfg.bufSize ∧
      s.HoldsInput (region ++ [lo, hi]) ∧ region[2]? = some cnt ∧ cnt.toNat + 5 ≤ len.toNat ∧
      crc16 region = lowFirst lo hi := by
  obtain ⟨hfit, d, hd, rfl⟩ := execDec_next.1 h
  cases d with
  | failed st =>
    exact absurd (statusCode_eq_zero.1 (Option.some.inj hst)) (decodeResponse_failed_ne_ok hd)
  | values vs =>
    rcases decodeResponse_ok_cases hd with ⟨_, hv⟩ | ⟨_, _, _, _, hv⟩ |
      ⟨cnt, region, lo, hi, hcnt, hle, hregion, hlo, hhi, ⟨_, hv⟩ | ⟨hcrc, _⟩⟩
    case inr.inr.inr =>
      obtain ⟨hlen, hread⟩ := readInputs_ok.1 hregion
      have hn : len.toNat = region.length + 2 := by omega
      rw [← hlen] at hregion hlo
      rw [show len.toNat - 1 = region.length + 1 by omega] at hhi
      exact ⟨region, lo, hi, cnt, hn, hfit, holdsInput_append_pair.2 ⟨hregion, hlo, hhi⟩,
        (hread 2 (by omega)).symm.trans hcnt, hle, hcrc⟩
    all_goals cases hv

/-- A buffer that holds a sequence holds, after a write, the sequence with that byte replaced. -/
theorem holdsInput_write {s : State} {bs : List Byte} (h : s.HoldsInput bs) (j : Nat) (b : Byte) :
    { s with ibuf := s.ibuf.write j b }.HoldsInput (bs.set j b) := by
  intro k hk
  rw [List.length_set] at hk
  rw [Memory.read_write]
  split
  case isTrue hkj => rw [← hkj, List.getElem?_set_self hk]
  case isFalse hkj => rw [List.getElem?_set_ne (Ne.symm hkj), h k hk]

/-- Flipping one of its bits changes a byte. -/
theorem xor_bit_ne_self (b : Byte) {k : Nat} (hk : k < 8) : b ^^^ (1#8 <<< k) ≠ b := by
  intro h
  have hbit := congrArg (fun c : Byte => c.getLsbD k) h
  simp [hk] at hbit

/-- Two received CRCs that differ in one of their bytes differ. -/
theorem lowFirst_ne {lo hi lo' hi' : Byte} (h : lo' ≠ lo ∨ hi' ≠ hi) :
    lowFirst lo hi ≠ lowFirst lo' hi' := by
  intro heq
  have hlo := congrArg lo8 heq
  have hhi := congrArg hi8 heq
  rw [lo8_lowFirst, lo8_lowFirst] at hlo
  rw [hi8_lowFirst, hi8_lowFirst] at hhi
  exact h.elim (absurd hlo.symm) (absurd hhi.symm)

/-- Settles O41: the flip changes the received CRC and no byte that the computed one depends on. -/
theorem flippedCrcBitIsAMismatch : Obligations.FlippedCrcBitIsAMismatch := by
  unfold Obligations.FlippedCrcBitIsAMismatch
  intro s t len j k b h hst hj hb hk
  obtain ⟨region, lo, hi, cnt, hlen, hfit, hs, hcnt, hle, hcrc⟩ := exec_dec_next_ok h hst
  obtain ⟨_, hlo, hhi⟩ := holdsInput_append_pair.1 hs
  have hs' := holdsInput_write hs j (b ^^^ (1#8 <<< k))
  rcases hj with hj | hj
  · obtain rfl : j = region.length := by omega
    obtain rfl : b = lo := Option.some.inj (hb.symm.trans hlo)
    rw [List.set_append_right _ _ le_rfl, Nat.sub_self] at hs'
    exact wrongCrcIsACrcMismatch _ len region _ hi cnt hlen hfit hs' hcnt hle
      (hcrc ▸ lowFirst_ne (.inl (xor_bit_ne_self b hk)))
  · obtain rfl : j = region.length + 1 := by omega
    obtain rfl : b = hi := Option.some.inj (hb.symm.trans hhi)
    rw [List.set_append_right _ _ (Nat.le_add_right _ 1), Nat.add_sub_cancel_left] at hs'
    exact wrongCrcIsACrcMismatch _ len region lo _ cnt hlen hfit hs' hcnt hle
      (hcrc ▸ lowFirst_ne (.inr (xor_bit_ne_self b hk)))

/-- A sequence and the byte in the cell after it make up a longer sequence. -/
theorem holdsInput_append_singleton {s : State} {bs : List Byte} {b : Byte} (h : s.HoldsInput bs)
    (hb : s.ibuf.read bs.length = some b) : s.HoldsInput (bs ++ [b]) := by
  intro k hk
  rw [List.length_append, List.length_singleton] at hk
  obtain hk' | rfl : k < bs.length ∨ k = bs.length := by omega
  · rw [List.getElem?_append_left hk', h k hk']
  · rw [List.getElem?_concat_length, hb]

/-- R9: `BUF_SIZE` fits the LEN field. -/
theorem bufSize_lt (c : Config) : c.bufSize < 2 ^ 16 := by
  have := c.sizeAboveMin.isLt
  rw [Config.bufSize]
  omega

/-- Settles O42: by law (a) of the CRC, the low CRC byte taken into the checked bytes leaves the high CRC byte, which followed by 0x00
spells itself; the values lie before both. -/
theorem trailingZeroKeepsAResponseValid : Obligations.TrailingZeroKeepsAResponseValid := by
  unfold Obligations.TrailingZeroKeepsAResponseValid
  intro s t len h hst hfit hzero
  obtain ⟨region, lo, hi, cnt, hlen, hfit', hs, hcnt, hle, hcrc⟩ := exec_dec_next_ok h hst
  have hlen' : (len + 1).toNat = len.toNat + 1 :=
    BitVec.toNat_add_of_lt (hfit.trans_lt (bufSize_lt s.cfg))
  have hs' : s.HoldsInput ((region ++ [lo]) ++ [hi, 0x00]) := by
    have hnext : s.ibuf.read (region ++ [lo, hi]).length = some 0x00 := by
      rw [List.length_append]
      exact hlen ▸ hzero
    have hlonger := holdsInput_append_singleton hs hnext
    rw [List.append_assoc] at hlonger ⊢
    exact hlonger
  have hcrc' : crc16 (region ++ [lo]) = lowFirst hi 0x00 := by
    have hlaw := crc16_append_lo8 region
    rwa [hcrc, lo8_lowFirst, hi8_lowFirst, ← lowFirst_zero] at hlaw
  have hcnt' : (region ++ [lo])[2]? = some cnt := by
    rw [List.getElem?_append_left (by omega), hcnt]
  rw [← h, exec_dec_of_region hlen hfit' hs hcnt hle, if_neg (not_not.2 hcrc),
    exec_dec_of_region (by rw [hlen', hlen, List.length_append]; rfl) (by omega) hs' hcnt'
      (by omega),
    if_neg (not_not.2 hcrc'), registerValues_append (by rw [valueCount]; omega)]

end Sys2Proof.Machine
end
